-- ==== Sys2Proof/Word.lean ====
section
/-! DEFINITION. The word types of the block, the six register names and the six-word register file
(spec 10_state.md R12, 20_memory.md R26, R28). The accessors stand in Machine/Regs.lean. -/

namespace Sys2Proof

/-- One register word, 32 bits; bit 0 is the least significant (R8, R12). -/
abbrev Word := BitVec 32

/-- A command's operand `ARG`, 64 bits two's complement (R39). -/
abbrev Arg := BitVec 64

/-- The indices 0..5 of the register file: "No index outside 0..5 exists" (R12). -/
inductive RegIx where
  | r0 | r1 | r2 | r3 | r4 | r5
  deriving DecidableEq, Repr

/-- Six 32-bit words, one per ADF4351 register: the block's `REG` (R12), the receiver's `DEV_REG`
(R23) and the parameters `STATIC` and `BASELINE` (R55, R60) have this type. -/
structure RegFile where
  r0 : Word
  r1 : Word
  r2 : Word
  r3 : Word
  r4 : Word
  r5 : Word
  deriving DecidableEq, Repr

end Sys2Proof
end

