-- ==== Sys2Proof/Config.lean ====
section
/-! DEFINITION. What is fixed for one block: the parameters of spec 00_scope.md R7 that have alternatives (their
values for this hardware stand in Machine/Params.lean), and the values the spec leaves open, as opaque
constants without a body. -/

namespace Sys2Proof

/-- `FRAC_MODE` (R66, decision D10). -/
inductive FracMode where
  | nearest | truncate
  deriving DecidableEq, Repr

/-- `FRAC_TIE` (R66, 93 U2). -/
inductive FracTie where
  | up | down
  deriving DecidableEq, Repr

/-- `PRESCALER_POLICY` (R67, decision D8). -/
inductive PrescalerPolicy where
  | threshold (t : Int) | always89 | always45
  deriving DecidableEq, Repr

/-- `POWER_FIELD`: bits [4:3] of register 3, or of register 4 (R53, decision D6). -/
inductive PowerField where
  | reg3 | reg4
  deriving DecidableEq, Repr

/-- `NOISE_BITS` (R52, decision D7). -/
inductive NoiseBits where
  | oneHot | datasheetPair
  deriving DecidableEq, Repr

/-- The parameters of R7 that a model may take as arguments. -/
structure Params where
  /-- `REF_MIN_HZ` (D13). -/
  refMinHz : Int
  /-- `REF_MAX_HZ` (D13). -/
  refMaxHz : Int
  /-- `PRESCALER_POLICY` (D8). -/
  prescaler : PrescalerPolicy
  /-- `INT_MIN_45` (D14). -/
  intMin45 : Int
  /-- `INT_MIN_89` (D14). -/
  intMin89 : Int
  /-- `INT_MAX` (D14). -/
  intMax : Int
  /-- `BSC_TARGET_HZ` (D9). -/
  bscTargetHz : Int
  /-- `BSC_MIN` (D9). -/
  bscMin : Int
  /-- `BSC_MAX` (D9). -/
  bscMax : Int
  /-- `FRAC_MODE` (D10). -/
  fracMode : FracMode
  /-- `FRAC_TIE` (D10). -/
  fracTie : FracTie
  /-- `FRAC_CARRY` (D11). -/
  fracCarry : Bool
  /-- `POWER_FIELD` (D6). -/
  powerField : PowerField
  /-- `NOISE_BITS` (D7). -/
  noiseBits : NoiseBits
  /-- `STATIC`: the six `BASE` words (D5). -/
  base : RegFile
  /-- `BASELINE`: the six words sent first by `INIT` (D15). -/
  baseline : RegFile
  /-- `CE_ON`: the asserted level of chip-enable (D18). -/
  ceOn : Bool
  deriving DecidableEq, Repr

/-- FREE VALUE: the level of the lock-detect input at the n-th sample for which the environment has
supplied no level (R19, R78, 93 U8). Assumption log 3. -/
opaque Config.ldIn : Nat → Bool

/-- FREE VALUE: what latch `a` of the receiver holds after the n-th open event, when a word with
address 6 or 7 has been committed (R87, 93 U1). Assumption log 4. -/
opaque Config.badAddressLatch : Nat → RegIx → Word

/-- FREE VALUE: the bit the receiver shifts in at the n-th open event, when `CLK` rises while `DATA`
is undriven. No command does this. Assumption log 5. -/
opaque Config.floatingData : Nat → Bool

/-- `T_SETUP`: an OPEN lower bound on the time from `Emit(DATA, b)` to the next `Emit(CLK, 1)`
(R85, D24). No meaning reads it. -/
opaque Config.tSetup : Nat

/-- `T_CLK_HIGH`: an OPEN lower bound from `Emit(CLK, 1)` to the next `Emit(CLK, 0)` (R85, D24). -/
opaque Config.tClkHigh : Nat

/-- `T_CLK_LOW`: an OPEN lower bound from `Emit(CLK, 0)` to the next `Emit(CLK, 1)` or
`Emit(LE, 1)` (R85, D24). -/
opaque Config.tClkLow : Nat

/-- `T_LE_HOLD`: an OPEN lower bound from `Emit(LE, 1)` to the next `Emit(LE, 0)` (R85, D24). -/
opaque Config.tLeHold : Nat

end Sys2Proof
end

