-- ==== Sys2Proof/Syntax.lean ====
section
/-! DEFINITION. The instruction type: one constructor per row of spec/opcode_table.json. Eight commands, the
reserved codes, the two pseudo-instructions (spec 30_encoding.md R39 to R43), and the register words of the
serial bus, each with its fields (R44 to R51, R56). -/

namespace Sys2Proof

/-- Fields of register word 0, from bit 31 down (R46). -/
structure Reg0Word where
  rsvd : BitVec 1
  int : BitVec 16
  frac : BitVec 12
  deriving DecidableEq, Repr

/-- Fields of register word 1, from bit 31 down (R47). -/
structure Reg1Word where
  rsvd : BitVec 3
  phaseAdj : BitVec 1
  prescaler : BitVec 1
  phase : BitVec 12
  mod : BitVec 12
  deriving DecidableEq, Repr

/-- Fields of register word 2, from bit 31 down (R48). -/
structure Reg2Word where
  rsvd : BitVec 1
  lowSpur : BitVec 1
  lowNoise : BitVec 1
  muxout : BitVec 3
  refDoubler : BitVec 1
  refDiv2 : BitVec 1
  rCounter : BitVec 10
  doubleBuffer : BitVec 1
  cpCurrent : BitVec 4
  ldf : BitVec 1
  ldp : BitVec 1
  pdPolarity : BitVec 1
  powerDown : BitVec 1
  cpThreeState : BitVec 1
  counterReset : BitVec 1
  deriving DecidableEq, Repr

/-- Fields of register word 3, from bit 31 down (R49). -/
structure Reg3Word where
  rsvdHi : BitVec 8
  bscMode : BitVec 1
  abp : BitVec 1
  chargeCancel : BitVec 1
  rsvdMid : BitVec 2
  csr : BitVec 1
  rsvdLo : BitVec 1
  clkDivMode : BitVec 2
  clkDivHi : BitVec 10
  power : BitVec 2
  deriving DecidableEq, Repr

/-- Fields of register word 4, from bit 31 down (R50). -/
structure Reg4Word where
  rsvd : BitVec 8
  fbSelect : BitVec 1
  rfDivSel : BitVec 3
  bscDiv : BitVec 8
  vcoPowerDown : BitVec 1
  mtld : BitVec 1
  auxSelect : BitVec 1
  auxEnable : BitVec 1
  auxPower : BitVec 2
  outDisable : BitVec 1
  rfPower : BitVec 2
  deriving DecidableEq, Repr

/-- Fields of register word 5, from bit 31 down (R51). -/
structure Reg5Word where
  rsvdHi : BitVec 8
  ldPinMode : BitVec 2
  rsvd21 : BitVec 1
  rsvdOnes : BitVec 2
  rsvdLo : BitVec 16
  deriving DecidableEq, Repr

/-- A word whose address is 6 or 7: `addrLow` is bit 0 of the address, whose bits [2:1] are 0b11 (R56). -/
structure Reg67Word where
  rest : BitVec 29
  addrLow : BitVec 1
  deriving DecidableEq, Repr

/-- One row of spec/opcode_table.json each. -/
inductive Instr where
  /-- `INIT`, `initialize(referenceFrequencyHz)` (R58). -/
  | init (arg : Arg)
  /-- `SET_FREQ`, `setFrequency(hz)` (R71). -/
  | setFreq (arg : Arg)
  /-- `SET_POWER`, `setPowerLevel(level)` (R73). -/
  | setPower (arg : Arg)
  /-- `ENABLE_OUTPUT`, `enableOutput(enable)` (R74). -/
  | enableOutput (arg : Arg)
  /-- `SET_PHASE`, `setPhase(phase)` (R75). -/
  | setPhase (arg : Arg)
  /-- `SET_LOW_NOISE`, `setLowNoiseMode(lowNoise)` (R76). -/
  | setLowNoise (arg : Arg)
  /-- `GET_FREQ`, `getFrequency()`; the operand is ignored (R77). -/
  | getFreq (arg : Arg)
  /-- `IS_LOCKED`, `isLocked()`; the operand is ignored (R78). -/
  | isLocked (arg : Arg)
  /-- A reserved operation code `8 + code`, 0x8 to 0xF (R41). -/
  | reserved (code : BitVec 3) (arg : Arg)
  /-- The pseudo-instruction `DISABLE_OUTPUT`, that is `ENABLE_OUTPUT false` (R43). -/
  | disableOutput
  /-- The pseudo-instruction `SET_LOW_SPUR`, that is `SET_LOW_NOISE false` (R43). -/
  | setLowSpur
  /-- Register word 0 on the serial bus (R46). -/
  | reg0IntFrac (f : Reg0Word)
  /-- Register word 1 on the serial bus (R47). -/
  | reg1PhaseModPrescaler (f : Reg1Word)
  /-- Register word 2 on the serial bus (R48). -/
  | reg2NoiseRefMux (f : Reg2Word)
  /-- Register word 3 on the serial bus (R49). -/
  | reg3PowerCp (f : Reg3Word)
  /-- Register word 4 on the serial bus (R50). -/
  | reg4RfdivBscOuten (f : Reg4Word)
  /-- Register word 5 on the serial bus (R51). -/
  | reg5LdPin (f : Reg5Word)
  /-- A word with address 6 or 7 on the serial bus, which the block never produces (R56). -/
  | regAddr67 (f : Reg67Word)
  deriving DecidableEq, Repr

/-- One item of the issue stream as bits: a 68-bit command word `OP ++ ARG` from the host (R39), or one
32-bit register word handed to the serializer on its own (R57, R80). -/
inductive Issue where
  | command (w : BitVec 68)
  | busWord (w : Word)
  deriving DecidableEq, Repr

/-- The mnemonics of the assembler syntax: R40's eight and R43's two pseudo-instructions. -/
inductive Mnemonic where
  | init | setFreq | setPower | enableOutput | setPhase | setLowNoise | getFreq | isLocked
  | disableOutput | setLowSpur
  deriving DecidableEq, Repr

/-- An operand as the assembler syntax writes it: a number, or `true` / `false` (R43). -/
inductive AsmOperand where
  | number (n : Int)
  | boolean (b : Bool)
  deriving DecidableEq, Repr

end Sys2Proof
end

