-- ==== Sys2Proof/WellFormed.lean ====
section
/-! DEFINITION. Well-formed instructions: the terms that are the reading of some word. The words of
`ENABLE_OUTPUT 0` and `SET_LOW_NOISE 0` read as the pseudo-instructions `DISABLE_OUTPUT` and
`SET_LOW_SPUR` (spec 30_encoding.md R43), whose table rows fix all 68 bits. -/

namespace Sys2Proof

/-- Every instruction has exactly one well-formed spelling; every other operand value is admitted. -/
def Instr.WellFormed : Instr → Bool
  | .init _ => true
  | .setFreq _ => true
  | .setPower _ => true
  | .enableOutput arg => decide (arg ≠ 0)
  | .setPhase _ => true
  | .setLowNoise arg => decide (arg ≠ 0)
  | .getFreq _ => true
  | .isLocked _ => true
  | .reserved _ _ => true
  | .disableOutput => true
  | .setLowSpur => true
  | .reg0IntFrac _ => true
  | .reg1PhaseModPrescaler _ => true
  | .reg2NoiseRefMux _ => true
  | .reg3PowerCp _ => true
  | .reg4RfdivBscOuten _ => true
  | .reg5LdPin _ => true
  | .regAddr67 _ => true

/-- A command or pseudo-instruction of the host, as opposed to a register word of the bus (R39, R57). -/
def Instr.IsCommand : Instr → Bool
  | .init _ => true
  | .setFreq _ => true
  | .setPower _ => true
  | .enableOutput _ => true
  | .setPhase _ => true
  | .setLowNoise _ => true
  | .getFreq _ => true
  | .isLocked _ => true
  | .reserved _ _ => true
  | .disableOutput => true
  | .setLowSpur => true
  | .reg0IntFrac _ => false
  | .reg1PhaseModPrescaler _ => false
  | .reg2NoiseRefMux _ => false
  | .reg3PowerCp _ => false
  | .reg4RfdivBscOuten _ => false
  | .reg5LdPin _ => false
  | .regAddr67 _ => false

end Sys2Proof
end

