-- ==== Sys2Proof/Decode.lean ====
section
/-! DEFINITION. The decoder of command words and register words (spec 30_encoding.md R39 to R51, R57), then the
encoder written from the same tables, and the assembler syntax at the level of tokens (R43). -/

namespace Sys2Proof

/-! ### Decoding -/

/-- Why a number of bits is no instruction of this block. -/
inductive DecodeError where
  /-- The value has a bit above its format's width, 32 for a register word and 68 for a command. -/
  | tooWide (width : Nat)
  deriving DecidableEq, Repr

/-- The unsigned slice `w[hi:lo]` with `n = hi-lo+1` bits (R8): "No field is sign-extended" (R57). -/
def slice {k : Nat} (w : BitVec k) (lo n : Nat) : BitVec n := w.extractLsb' lo n

def Reg0Word.ofWord (w : Word) : Reg0Word :=
  { rsvd := slice w 31 1, int := slice w 15 16, frac := slice w 3 12 }

def Reg1Word.ofWord (w : Word) : Reg1Word :=
  { rsvd := slice w 29 3, phaseAdj := slice w 28 1, prescaler := slice w 27 1,
    phase := slice w 15 12, mod := slice w 3 12 }

def Reg2Word.ofWord (w : Word) : Reg2Word :=
  { rsvd := slice w 31 1, lowSpur := slice w 30 1, lowNoise := slice w 29 1,
    muxout := slice w 26 3, refDoubler := slice w 25 1, refDiv2 := slice w 24 1,
    rCounter := slice w 14 10, doubleBuffer := slice w 13 1, cpCurrent := slice w 9 4,
    ldf := slice w 8 1, ldp := slice w 7 1, pdPolarity := slice w 6 1,
    powerDown := slice w 5 1, cpThreeState := slice w 4 1, counterReset := slice w 3 1 }

def Reg3Word.ofWord (w : Word) : Reg3Word :=
  { rsvdHi := slice w 24 8, bscMode := slice w 23 1, abp := slice w 22 1,
    chargeCancel := slice w 21 1, rsvdMid := slice w 19 2, csr := slice w 18 1,
    rsvdLo := slice w 17 1, clkDivMode := slice w 15 2, clkDivHi := slice w 5 10,
    power := slice w 3 2 }

def Reg4Word.ofWord (w : Word) : Reg4Word :=
  { rsvd := slice w 24 8, fbSelect := slice w 23 1, rfDivSel := slice w 20 3,
    bscDiv := slice w 12 8, vcoPowerDown := slice w 11 1, mtld := slice w 10 1,
    auxSelect := slice w 9 1, auxEnable := slice w 8 1, auxPower := slice w 6 2,
    outDisable := slice w 5 1, rfPower := slice w 3 2 }

def Reg5Word.ofWord (w : Word) : Reg5Word :=
  { rsvdHi := slice w 24 8, ldPinMode := slice w 22 2, rsvd21 := slice w 21 1,
    rsvdOnes := slice w 19 2, rsvdLo := slice w 3 16 }

def Reg67Word.ofWord (w : Word) : Reg67Word :=
  { rest := slice w 3 29, addrLow := slice w 0 1 }

/-- A register word: `w[2:0]` alone selects the format (R44, R57). -/
def decodeBusWord (w : Word) : Instr :=
  match (slice w 0 3).toNat with
  | 0 => .reg0IntFrac (.ofWord w)
  | 1 => .reg1PhaseModPrescaler (.ofWord w)
  | 2 => .reg2NoiseRefMux (.ofWord w)
  | 3 => .reg3PowerCp (.ofWord w)
  | 4 => .reg4RfdivBscOuten (.ofWord w)
  | 5 => .reg5LdPin (.ofWord w)
  | _ => .regAddr67 (.ofWord w)

/-- A command word: `OP` is bits [67:64] and `ARG` bits [63:0] (R39, R40). The two words of the
pseudo-instructions of R43 read as those (assumption log 15). -/
def decodeCommand (w : BitVec 68) : Instr :=
  let arg : Arg := slice w 0 64
  match (slice w 64 4).toNat with
  | 0x0 => .init arg
  | 0x1 => .setFreq arg
  | 0x2 => .setPower arg
  | 0x3 => if arg = 0 then .disableOutput else .enableOutput arg
  | 0x4 => .setPhase arg
  | 0x5 => if arg = 0 then .setLowSpur else .setLowNoise arg
  | 0x6 => .getFreq arg
  | 0x7 => .isLocked arg
  | _ => .reserved (slice w 64 3) arg

/-- Decoding an item of the issue stream; total, since every word of either format is an
instruction of the table. -/
def decode : Issue → Instr
  | .command w => decodeCommand w
  | .busWord w => decodeBusWord w

/-- The item of the issue stream that `nbits` bits with value `w` are: a register word when at most
32 bits, a command otherwise (assumption log 16); rejected by name when the value does not fit. -/
def Issue.ofBits (nbits w : Nat) : Except DecodeError Issue :=
  if nbits ≤ 32 then
    if w < 2 ^ 32 then .ok (.busWord (BitVec.ofNat 32 w)) else .error (.tooWide 32)
  else
    if w < 2 ^ 68 then .ok (.command (BitVec.ofNat 68 w)) else .error (.tooWide 68)

/-- Decoding any number of bits with any value. -/
def decodeBits (nbits w : Nat) : Except DecodeError Instr :=
  match Issue.ofBits nbits w with
  | .ok item => .ok (decode item)
  | .error e => .error e

/-- The instruction read from a row of spec/opcode_table.json, bits numbered as the table numbers
them; none where the decoder refuses. -/
def decodeTableWord (nbits w : Nat) : Option Instr :=
  match decodeBits nbits w with
  | .ok i => some i
  | .error _ => none

/-! ### Encoding -/

/-- The command word `OP ++ ARG` (R39). -/
def commandWord (op : BitVec 4) (arg : Arg) : BitVec 68 := op ++ arg

def Reg0Word.toWord (f : Reg0Word) : Word := f.rsvd ++ f.int ++ f.frac ++ 0b000#3

def Reg1Word.toWord (f : Reg1Word) : Word :=
  f.rsvd ++ f.phaseAdj ++ f.prescaler ++ f.phase ++ f.mod ++ 0b001#3

def Reg2Word.toWord (f : Reg2Word) : Word :=
  f.rsvd ++ f.lowSpur ++ f.lowNoise ++ f.muxout ++ f.refDoubler ++ f.refDiv2 ++ f.rCounter
    ++ f.doubleBuffer ++ f.cpCurrent ++ f.ldf ++ f.ldp ++ f.pdPolarity ++ f.powerDown
    ++ f.cpThreeState ++ f.counterReset ++ 0b010#3

def Reg3Word.toWord (f : Reg3Word) : Word :=
  f.rsvdHi ++ f.bscMode ++ f.abp ++ f.chargeCancel ++ f.rsvdMid ++ f.csr ++ f.rsvdLo
    ++ f.clkDivMode ++ f.clkDivHi ++ f.power ++ 0b011#3

def Reg4Word.toWord (f : Reg4Word) : Word :=
  f.rsvd ++ f.fbSelect ++ f.rfDivSel ++ f.bscDiv ++ f.vcoPowerDown ++ f.mtld ++ f.auxSelect
    ++ f.auxEnable ++ f.auxPower ++ f.outDisable ++ f.rfPower ++ 0b100#3

def Reg5Word.toWord (f : Reg5Word) : Word :=
  f.rsvdHi ++ f.ldPinMode ++ f.rsvd21 ++ f.rsvdOnes ++ f.rsvdLo ++ 0b101#3

def Reg67Word.toWord (f : Reg67Word) : Word := f.rest ++ 0b11#2 ++ f.addrLow

/-- The word of an instruction, from R40, R41, R43 and the tables of R46 to R51. -/
def encode : Instr → Issue
  | .init arg => .command (commandWord 0x0#4 arg)
  | .setFreq arg => .command (commandWord 0x1#4 arg)
  | .setPower arg => .command (commandWord 0x2#4 arg)
  | .enableOutput arg => .command (commandWord 0x3#4 arg)
  | .setPhase arg => .command (commandWord 0x4#4 arg)
  | .setLowNoise arg => .command (commandWord 0x5#4 arg)
  | .getFreq arg => .command (commandWord 0x6#4 arg)
  | .isLocked arg => .command (commandWord 0x7#4 arg)
  | .reserved code arg => .command (commandWord (0b1#1 ++ code) arg)
  | .disableOutput => .command (commandWord 0x3#4 0)
  | .setLowSpur => .command (commandWord 0x5#4 0)
  | .reg0IntFrac f => .busWord f.toWord
  | .reg1PhaseModPrescaler f => .busWord f.toWord
  | .reg2NoiseRefMux f => .busWord f.toWord
  | .reg3PowerCp f => .busWord f.toWord
  | .reg4RfdivBscOuten f => .busWord f.toWord
  | .reg5LdPin f => .busWord f.toWord
  | .regAddr67 f => .busWord f.toWord

/-! ### Assembler syntax (R43), at the level of tokens -/

/-- The 64 bits of a number operand, when it is a signed 64-bit value (R39). -/
def numberOperand (n : Int) : Option Arg :=
  if -2 ^ 63 ≤ n ∧ n < 2 ^ 63 then some (BitVec.ofInt 64 n) else none

/-- The operand of an integer command: a number. -/
def integerOperand : Option AsmOperand → Option Arg
  | some (.number n) => numberOperand n
  | _ => none

/-- The operand of a Boolean command: `true` (1), `false` (0), or a number. -/
def booleanOperand : Option AsmOperand → Option Arg
  | some (.number n) => numberOperand n
  | some (.boolean b) => some (if b then 1 else 0)
  | none => none

/-- The operand of a mnemonic that takes none: encoded as `ARG = 0`. -/
def noOperand : Option AsmOperand → Option Arg
  | none => some 0
  | some _ => none

/-- The command word of one assembler line (R43). -/
def assemble (m : Mnemonic) (operand : Option AsmOperand) : Option (BitVec 68) :=
  match m with
  | .init => (integerOperand operand).map (commandWord 0x0#4)
  | .setFreq => (integerOperand operand).map (commandWord 0x1#4)
  | .setPower => (integerOperand operand).map (commandWord 0x2#4)
  | .enableOutput => (booleanOperand operand).map (commandWord 0x3#4)
  | .setPhase => (integerOperand operand).map (commandWord 0x4#4)
  | .setLowNoise => (booleanOperand operand).map (commandWord 0x5#4)
  | .getFreq => (noOperand operand).map (commandWord 0x6#4)
  | .isLocked => (noOperand operand).map (commandWord 0x7#4)
  | .disableOutput => (noOperand operand).map (commandWord 0x3#4)
  | .setLowSpur => (noOperand operand).map (commandWord 0x5#4)

end Sys2Proof
end

