-- ==== Sys2Proof/Machine/Regs.lean ====
section
/-! DEFINITION. Register addresses and the accessors of the six-word register file (spec 10_state.md R12,
20_memory.md R26, R28). -/

namespace Sys2Proof

/-- The 3-bit address of a register (R26, R44). -/
def RegIx.addr : RegIx → BitVec 3
  | .r0 => 0 | .r1 => 1 | .r2 => 2 | .r3 => 3 | .r4 => 4 | .r5 => 5

/-- The register at a 3-bit address: "Addresses 6 and 7 hold nothing" (R26). -/
def RegIx.ofAddr (a : BitVec 3) : Option RegIx :=
  match a.toNat with
  | 0 => some .r0 | 1 => some .r1 | 2 => some .r2
  | 3 => some .r3 | 4 => some .r4 | 5 => some .r5
  | _ => none

/-- The address a register word carries in its bits [2:0] (R44). -/
def addrOf (w : Word) : BitVec 3 := slice w 0 3

/-- `REG[i]` (R10). -/
def RegFile.get (r : RegFile) : RegIx → Word
  | .r0 => r.r0 | .r1 => r.r1 | .r2 => r.r2 | .r3 => r.r3 | .r4 => r.r4 | .r5 => r.r5

/-- `REG[i] <- w`, a whole word (R10, R28). -/
def RegFile.set (r : RegFile) (i : RegIx) (w : Word) : RegFile :=
  match i with
  | .r0 => { r with r0 := w }
  | .r1 => { r with r1 := w }
  | .r2 => { r with r2 := w }
  | .r3 => { r with r3 := w }
  | .r4 => { r with r4 := w }
  | .r5 => { r with r5 := w }

/-- The register file whose word `i` is `f i`. -/
def RegFile.ofFn (f : RegIx → Word) : RegFile :=
  { r0 := f .r0, r1 := f .r1, r2 := f .r2, r3 := f .r3, r4 := f .r4, r5 := f .r5 }

end Sys2Proof
end

