-- ==== Sys2Proof/Machine/Params.lean ====
section
/-! DEFINITION. The parameter values of this hardware: the defaults of spec 00_scope.md R7, and the constants the
source fixes. -/

namespace Sys2Proof.Machine

/-- `F_MIN`, 35 MHz (R7, R61). -/
def fMin : Int := 35000000

/-- `F_MAX`, 4.4 GHz (R7, R61). -/
def fMax : Int := 4400000000

/-- `INIT_FREQ`, 100 MHz (R7, R58). -/
def initFreq : Int := 100000000

/-- `MOD`, the fractional modulus (R7, R66). -/
def modulus : Int := 1000

/-- `R_DIV`, the reference divider (R7, R64). -/
def rDiv : Int := 1

/-- `STATIC`: `BASE[0..5]`, the static field values (R55). -/
def baseWords : RegFile :=
  { r0 := 0x00000000, r1 := 0x00001F41, r2 := 0x18004E42,
    r3 := 0x000004A3, r4 := 0x0080001C, r5 := 0x00580005 }

/-- `BASELINE[0..5]` (R60). -/
def baselineWords : RegFile :=
  { r0 := 0x002C0000, r1 := 0x00001F41, r2 := 0x38004E42,
    r3 := 0x000004BB, r4 := 0x00DC801C, r5 := 0x00580005 }

/-- The parameters of this hardware: "The default is the value for this hardware" (R7). -/
def hw : Params :=
  { refMinHz := 67139
    refMaxHz := 29333333
    prescaler := .threshold 3600000000
    intMin45 := 23
    intMin89 := 75
    intMax := 65535
    bscTargetHz := 125000
    bscMin := 1
    bscMax := 255
    fracMode := .nearest
    fracTie := .up
    fracCarry := false
    powerField := .reg3
    noiseBits := .oneHot
    base := baseWords
    baseline := baselineWords
    ceOn := true }

end Sys2Proof.Machine
end

