-- ==== Sys2Proof/Machine/State.lean ====
section
/-! DEFINITION. The machine's state as plain data (spec 10_state.md R12 to R25), its reset value (R25, R102), and
the reasons a step can stop. -/

namespace Sys2Proof.Machine

/-- The settings record `S`, the source's SynthesizerState (R14). -/
structure Settings where
  /-- Reference frequency in Hz. -/
  ref : Int
  /-- Last successfully programmed frequency in Hz; 0 until the first. -/
  fout : Int
  /-- Power level 0..3; level `k` is `-4 + 3k` dBm. -/
  pwr : Fin 4
  /-- Output enabled when true. -/
  outen : Bool
  /-- Phase value 0..4095. -/
  phase : Fin 4096
  /-- True: low-noise mode; false: low-spur mode. -/
  lownoise : Bool
  deriving DecidableEq, Repr

/-- The frequency calculation record `c` (R70); `p` is the prescaler bit, true for 8/9. -/
structure Calc where
  d : Nat
  vco : Int
  pfd : Int
  int : Int
  frac : Int
  p : Bool
  bsc : Int
  deriving DecidableEq, Repr

/-- The codes of the `FAULT` register (R16, R90). -/
inductive FaultCode where
  | none | badOp | notInit | reinit | refRange | intRange
  deriving DecidableEq, Repr

/-- The four output lines (R18). -/
inductive Line where
  | le | clk | data | ce
  deriving DecidableEq, Repr

/-- A pin event: a line and the level it is given (R79). -/
structure PinEvent where
  line : Line
  level : Bool
  deriving DecidableEq, Repr

/-- The level each line holds; `none` is the spec's *undriven* (R18). -/
structure Pins where
  le : Option Bool
  clk : Option Bool
  data : Option Bool
  ce : Option Bool
  deriving DecidableEq, Repr

/-- The observation model of the chip's serial port (R23, R87). `opens` counts the events whose
outcome the spec leaves open; it is the model's own field (assumption log 4, 5). -/
structure Receiver where
  sr : Word
  reg : RegFile
  opens : Nat
  deriving DecidableEq, Repr

/-- The lines and the receiver they drive. -/
structure Bus where
  pins : Pins
  dev : Receiver
  deriving DecidableEq, Repr

/-- Where the serializer stands inside a transfer: about to set `DATA`, to raise `CLK`, to lower `CLK`,
or, with all 32 bits sent, to raise `LE` (R80; the model's refinement of R21, assumption log 8). -/
inductive BitStep where
  | setData | clkRise | clkFall | latch
  deriving DecidableEq, Repr

/-- The serializer's state: its phase, the word being sent and the index of the next bit (R21). -/
inductive Serializer where
  | idle
  | shifting (word : Word) (next : Fin 32) (step : BitStep)
  deriving DecidableEq, Repr

/-- One response: `RESP_OK` and `RESP_VAL` (R17). -/
structure Response where
  ok : Bool
  val : BitVec 64
  deriving DecidableEq, Repr

/-- Everything the spec gives the machine, with the observation of the run (R11) and the inputs the
environment supplies (R24). -/
structure State where
  /-- `REG[0..5]` (R12). -/
  reg : RegFile
  /-- The settings record (R14). -/
  S : Settings
  /-- `INITED` (R15). -/
  inited : Bool
  /-- `FAULT` (R16). -/
  fault : FaultCode
  /-- `RESP_OK` (R17). -/
  respOk : Bool
  /-- `RESP_VAL` (R17). -/
  respVal : BitVec 64
  /-- The lines (R18) and the receiver (R23). -/
  bus : Bus
  /-- The serializer (R21). -/
  ser : Serializer
  /-- The run's pin events, in order (R79, R11). -/
  events : List PinEvent
  /-- The run's responses, in order (R11). -/
  responses : List Response
  /-- The issue stream: what the host has issued and the block has not yet executed (R20, R33). -/
  issue : List Issue
  /-- Levels of `LD_IN` the environment supplies for the coming samples (R19). -/
  ldIn : List Bool
  /-- How many samples of `LD_IN` were free values so far (assumption log 3). -/
  ldDraws : Nat
  deriving DecidableEq, Repr

/-- The state at power-on, the one reset (R25, R102). What R25 calls unspecified is zero here
(assumption log 1, 2). -/
def State.reset : State :=
  { reg := { r0 := 0, r1 := 0, r2 := 0, r3 := 0, r4 := 0, r5 := 0 }
    S := { ref := 0, fout := 0, pwr := 0, outen := false, phase := 0, lownoise := false }
    inited := false
    fault := .none
    respOk := false
    respVal := 0
    bus :=
      { pins := { le := none, clk := none, data := none, ce := none }
        dev :=
          { sr := 0, reg := { r0 := 0, r1 := 0, r2 := 0, r3 := 0, r4 := 0, r5 := 0 }, opens := 0 } }
    ser := .idle
    events := []
    responses := []
    issue := []
    ldIn := []
    ldDraws := 0 }

/-- Why the machine stops with a fault. The block's own faults (R90) are no such stop: they are codes
of the register `FAULT`, in a next state. -/
inductive Fault where
  /-- Raised by a field insert outside the condition of R45, "a fault of the model and not a value".
  Safe: the model stops. No instruction of the table reaches it. -/
  | insertOutOfWidth
  deriving DecidableEq, Repr

/-- Why the machine refuses. -/
inductive Refusal where
  /-- Answered by an arm of `exec` for an instruction without a meaning yet; no arm does. Safe. -/
  | notModelled (mnemonic : String)
  /-- Answered by every meaning when the serializer is `Shifting`: "it has no step for that case"
  (R105, 93 U12). Safe. `step` holds the command instead and never answers this. -/
  | overlappingCommand
  deriving DecidableEq, Repr

/-- The outcome of an instruction. -/
abbrev Result := Host.Outcome State Fault Refusal

/-- How the body of `SET_FREQ` ends: out of range with nothing done, a fault raised, or done (R71). -/
inductive SetFreqResult where
  | rejected
  | raised (s : State)
  | done (s : State)
  deriving DecidableEq, Repr

end Sys2Proof.Machine
end

