-- ==== Sys2Proof/Machine/Operands.lean ====
section
/-! DEFINITION. The operand forms of commands (spec 30_encoding.md R42) and the clamps of R73 and R75. -/

namespace Sys2Proof.Machine

/-- An integer operand: `sext_64(ARG)`, used whole (R42). -/
def argInt (arg : Arg) : Int := arg.toInt

/-- A Boolean operand: true when `ARG != 0` (R42). -/
def argBool (arg : Arg) : Bool := decide (arg ≠ 0)

/-- `clamp(x, lo, hi) = min(max(x, lo), hi)` (R9). -/
def clamp (x lo hi : Int) : Int := min (max x lo) hi

theorem clamp_toNat_lt (x : Int) (n : Nat) : (clamp x 0 n).toNat < n + 1 := by
  unfold clamp
  omega

/-- `clamp(level, 0, 3)` as a power level (R73). -/
def clampPower (level : Int) : Fin 4 := ⟨(clamp level 0 (3 : Nat)).toNat, clamp_toNat_lt level 3⟩

/-- `clamp(phase, 0, 4095)` as a phase value (R75). -/
def clampPhase (phase : Int) : Fin 4096 :=
  ⟨(clamp phase 0 (4095 : Nat)).toNat, clamp_toNat_lt phase 4095⟩

/-- `bit(b)`: 1 if the Boolean is true and 0 otherwise (R8). -/
def bit (b : Bool) : Nat := if b then 1 else 0

/-- The power in dBm that a level stands for, `-4 + 3k` (R14, R53). -/
def powerDbm (level : Fin 4) : Int := -4 + 3 * (level.val : Int)

end Sys2Proof.Machine
end

