-- ==== Sys2Proof/Machine/Flags.lean ====
section
/-! DEFINITION. The response registers, "the block's only condition flags" (spec 10_state.md R17), and the code
of the fault register (60_exceptions.md R90). -/

namespace Sys2Proof.Machine

/-- `respond(ok, val)`: sets `RESP_OK` and `RESP_VAL` and records the response (R10, R11, R17). -/
def respond (ok : Bool) (val : BitVec 64) (s : State) : State :=
  { s with respOk := ok, respVal := val, responses := s.responses ++ [{ ok := ok, val := val }] }

/-- A frequency as the signed 64-bit `RESP_VAL` (R17, R77). -/
def freqValue (hz : Int) : BitVec 64 := BitVec.ofInt 64 hz

/-- A Boolean as `RESP_VAL`: 1 or 0 (R78). -/
def boolValue (b : Bool) : BitVec 64 := BitVec.ofNat 64 (bit b)

/-- The number in the `FAULT` register (R90). -/
def FaultCode.code : FaultCode → Nat
  | .none => 0 | .badOp => 1 | .notInit => 2 | .reinit => 3 | .refRange => 4 | .intRange => 5

end Sys2Proof.Machine
end

