-- ==== Sys2Proof/Machine/Frequency.lean ====
section
/-! DEFINITION. The frequency computation as pure functions, exact integers throughout (spec 41_frequency.md R61
to R70; 00_scope.md R9: `/` here is floor division and `%` the non-negative remainder, for a positive divisor),
and the word composition (30_encoding.md R52 to R55). -/

namespace Sys2Proof.Machine

/-- Both bounds inclusive (R61). -/
abbrev InRange (hz : Int) : Prop := fMin ≤ hz ∧ hz ≤ fMax

/-- The RF output divider exponent, by strict upper-bound comparisons in increasing order (R62). -/
def dividerExp (hz : Int) : Nat :=
  if hz < 68750000 then 6
  else if hz < 137500000 then 5
  else if hz < 275000000 then 4
  else if hz < 550000000 then 3
  else if hz < 1100000000 then 2
  else if hz < 2200000000 then 1
  else 0

/-- `vco = hz × 2^d` (R63). -/
def vcoOf (hz : Int) : Int := hz * 2 ^ dividerExp hz

/-- `pfd = ref div R_DIV` (R64). -/
def pfdOf (ref : Int) : Int := ref / rDiv

/-- `FracRound(r, pfd)` (R66). -/
def fracRound (P : Params) (r pfd : Int) : Int :=
  let q := (r * modulus) / pfd
  let e := (r * modulus) % pfd
  match P.fracMode with
  | .truncate => q
  | .nearest =>
    if 2 * e > pfd then q + 1
    else if 2 * e < pfd then q
    else match P.fracTie with
      | .up => q + 1
      | .down => q

/-- `int` and `frac` of the quotient `vco / pfd`, with the carry when `FRAC_CARRY` is true (R65, R66). -/
def intFrac (P : Params) (vco pfd : Int) : Int × Int :=
  let f := fracRound P (vco % pfd) pfd
  if P.fracCarry && f == modulus then (vco / pfd + 1, 0) else (vco / pfd, f)

/-- The prescaler bit, true for 8/9 (R67). -/
def prescalerBit (P : Params) (vco : Int) : Bool :=
  match P.prescaler with
  | .threshold t => decide (vco > t)
  | .always89 => true
  | .always45 => false

/-- `INT_MIN(p)` (R68). -/
def intMin (P : Params) (p : Bool) : Int := if p then P.intMin89 else P.intMin45

/-- `ceil(a / b)` for a positive `b` (R9). -/
def ceilDiv (a b : Int) : Int := -((-a) / b)

/-- `BscDiv(pfd) = clamp(ceil(pfd / BSC_TARGET_HZ), BSC_MIN, BSC_MAX)` (R69). -/
def bscDiv (P : Params) (pfd : Int) : Int := clamp (ceilDiv pfd P.bscTargetHz) P.bscMin P.bscMax

/-- The record of R62 to R69 in that order, before the check of R68. -/
def calcOf (P : Params) (hz ref : Int) : Calc :=
  let vco := vcoOf hz
  let pfd := pfdOf ref
  { d := dividerExp hz
    vco := vco
    pfd := pfd
    int := (intFrac P vco pfd).1
    frac := (intFrac P vco pfd).2
    p := prescalerBit P vco
    bsc := bscDiv P pfd }

/-- `FreqCalc(hz, ref)`; "It faults only through rule R68" (R68, R70). -/
def freqCalc (P : Params) (hz ref : Int) : Except FaultCode Calc :=
  let c := calcOf P hz ref
  if c.int < intMin P c.p ∨ c.int > P.intMax then .error .intRange else .ok c

/-! ### Composition -/

/-- The value of R2[30:29] for a noise mode (R52, R56). -/
def noiseValue (P : Params) (lownoise : Bool) : Nat :=
  match P.noiseBits, lownoise with
  | .oneHot, true => 0b01
  | .oneHot, false => 0b10
  | .datasheetPair, true => 0b00
  | .datasheetPair, false => 0b11

/-- A number shifted to its field: `v << lo`, in 32 bits. -/
def field (v lo : Nat) : Word := BitVec.ofNat 32 v <<< lo

/-- The mask of the field `[hi:lo]` (R45). -/
def fieldMask (hi lo : Nat) : Word := field (2 ^ (hi - lo + 1) - 1) lo

/-- `Insert(w, hi, lo, v)`; none outside `3 ≤ lo ≤ hi ≤ 31` and `v < 2^(hi-lo+1)`, where it is not
defined (R45). -/
def insertField (w : Word) (hi lo v : Nat) : Option Word :=
  if 3 ≤ lo ∧ lo ≤ hi ∧ hi ≤ 31 ∧ v < 2 ^ (hi - lo + 1) then
    some ((w &&& ~~~ fieldMask hi lo) ||| field v lo)
  else none

/-- The static word of register `i`: the `BASE` word, less the static `RF_POWER` of R4 where
`POWER_FIELD` names that field (R53, R55). -/
def staticWord (P : Params) (i : RegIx) : Word :=
  match P.powerField, i with
  | .reg4, .r4 => P.base.r4 &&& ~~~ fieldMask 4 3
  | _, _ => P.base.get i

/-- The power field's contribution to register `i` (R53). -/
def powerWord (P : Params) (i : RegIx) (pwr : Fin 4) : Word :=
  match P.powerField, i with
  | .reg3, .r3 => field pwr.val 3
  | .reg4, .r4 => field pwr.val 3
  | _, _ => 0

/-- `Compose(i, S, c)` (R55). -/
def compose (P : Params) (i : RegIx) (S : Settings) (c : Calc) : Word :=
  let static := staticWord P i ||| powerWord P i S.pwr
  match i with
  | .r0 => static ||| field c.int.toNat 15 ||| field c.frac.toNat 3
  | .r1 => static ||| field (bit c.p) 27 ||| field S.phase.val 15
  | .r2 => static ||| field (noiseValue P S.lownoise) 29
  | .r3 => static
  | .r4 => static ||| field c.d 20 ||| field c.bsc.toNat 12 ||| field (bit (!S.outen)) 5
  | .r5 => static

/-- All six words from `Compose`. -/
def composeAll (P : Params) (S : Settings) (c : Calc) : RegFile :=
  .ofFn fun i => compose P i S c

end Sys2Proof.Machine
end

