-- ==== Sys2Proof/Machine/Ops.lean ====
section
/-! DEFINITION. The shared operations: pin events and the receiver they drive (spec 44_serializer.md R79, R87), the
whole-word transfer and the full update (R80, R83), the serializer one pin event at a time (10_state.md R21,
70_reset_and_hazards.md R105), taking a fault (60_exceptions.md R91 to R93), the lock-detect sample (10_state.md
R19), the setting operation (42_settings.md), and the bodies shared by commands (R58, R71). There is no return from
a fault: only a power-on reset leaves it (R92, R95). -/

namespace Sys2Proof.Machine

/-! ### Lines and receiver -/

/-- A line takes the level of an event (R79). -/
def Pins.drive (p : Pins) (e : PinEvent) : Pins :=
  match e.line with
  | .le => { p with le := some e.level }
  | .clk => { p with clk := some e.level }
  | .data => { p with data := some e.level }
  | .ce => { p with ce := some e.level }

/-- `DEV_SR <- ((DEV_SR << 1) OR b) mod 2^32` (R87). -/
def shiftIn (sr : Word) (b : Bool) : Word := (sr <<< 1) ||| BitVec.ofNat 32 (bit b)

/-- A rising edge of `CLK` at the receiver (R87). A floating `DATA` gives a free bit (assumption log 5). -/
def Receiver.shift (d : Receiver) (data : Option Bool) : Receiver :=
  match data with
  | some b => { d with sr := shiftIn d.sr b }
  | none => { d with sr := shiftIn d.sr (Config.floatingData d.opens), opens := d.opens + 1 }

/-- A rising edge of `LE` at the receiver: the latch of address `DEV_SR[2:0]` takes `DEV_SR`; with
address 6 or 7 what the latches hold is open (R87, 93 U1, assumption log 4). -/
def Receiver.latch (d : Receiver) : Receiver :=
  match RegIx.ofAddr (addrOf d.sr) with
  | some i => { d with reg := d.reg.set i d.sr }
  | none => { d with reg := .ofFn (Config.badAddressLatch d.opens), opens := d.opens + 1 }

/-- What an event does at the receiver, `p` being the lines before it (R87). -/
def Receiver.observe (d : Receiver) (p : Pins) (e : PinEvent) : Receiver :=
  match e.line, e.level with
  | .clk, true => if p.clk = some false then d.shift p.data else d
  | .le, true => if p.le = some false then d.latch else d
  | _, _ => d

/-- One event on the lines and at the receiver. -/
def Bus.drive (b : Bus) (e : PinEvent) : Bus :=
  { pins := b.pins.drive e, dev := b.dev.observe b.pins e }

/-- The events of a list, in order. -/
def Bus.driveAll (b : Bus) (evs : List PinEvent) : Bus := evs.foldl Bus.drive b

/-- `Emit` for each event of a list, in order: every one is recorded (R79). -/
def emitAll (evs : List PinEvent) (s : State) : State :=
  { s with events := s.events ++ evs, bus := s.bus.driveAll evs }

/-- `Emit(line, level)` (R79). -/
def emit (line : Line) (level : Bool) (s : State) : State :=
  emitAll [{ line := line, level := level }] s

/-! ### Transfers -/

/-- The events of bits `n-1` down to 0 of a word: `DATA`, then a clock pulse (R80). -/
def bitEvents (w : Word) : Nat → List PinEvent
  | 0 => []
  | n + 1 =>
    { line := .data, level := w.getLsbD n } :: { line := .clk, level := true }
      :: { line := .clk, level := false } :: bitEvents w n

/-- The 98 events of `WriteWord(w)` (R80). -/
def wordEvents (w : Word) : List PinEvent :=
  { line := .le, level := false } :: (bitEvents w 32 ++ [{ line := .le, level := true }])

/-- `WriteWord(w)` (R80). -/
def writeWord (w : Word) (s : State) : State := emitAll (wordEvents w) s

/-- `Transmit([i1, ..., ik])`: each word is read from `REG` when its own transfer starts (R83). -/
def transmit : List RegIx → State → State
  | [], s => s
  | i :: rest, s => transmit rest (writeWord (s.reg.get i) s)

/-- The order of a full update: "Register 0 is always last" (R34, R83). -/
def fullUpdate : List RegIx := [.r5, .r4, .r3, .r2, .r1, .r0]

/-- The four events of `PinsIdle()` (R59). -/
def pinsIdleEvents (P : Params) : List PinEvent :=
  [{ line := .le, level := true }, { line := .clk, level := false },
   { line := .data, level := false }, { line := .ce, level := P.ceOn }]

/-- `PinsIdle()` (R59). -/
def pinsIdle (P : Params) (s : State) : State := emitAll (pinsIdleEvents P) s

/-! ### The serializer, one pin event at a time -/

/-- Begin a transfer: `LE` low, phase `Shifting`, next bit 31 (R21, R80). -/
def serBegin (w : Word) (s : State) : State :=
  { emit .le false s with ser := .shifting w 31 .setData }

/-- The next pin event of a transfer in progress (R21, R80); nothing when `Idle`. -/
def serTick (s : State) : State :=
  match s.ser with
  | .idle => s
  | .shifting w i .setData =>
    { emit .data (w.getLsbD i.val) s with ser := .shifting w i .clkRise }
  | .shifting w i .clkRise => { emit .clk true s with ser := .shifting w i .clkFall }
  | .shifting w i .clkFall =>
    { emit .clk false s with
      ser := if i.val = 0 then .shifting w i .latch
             else .shifting w ⟨i.val - 1, by omega⟩ .setData }
  | .shifting _ _ .latch => { emit .le true s with ser := .idle }

/-- `n` pin events of the serializer. -/
def serTicks : Nat → State → State
  | 0, s => s
  | n + 1, s => serTicks n (serTick s)

/-! ### Faults -/

/-- `raise Fault(code)`, the one shared way of taking a fault: `FAULT <- code` if it is 0, no response,
everything else as it is (R91). -/
def raise (code : FaultCode) (s : State) : State :=
  { s with fault := if s.fault = .none then code else s.fault }

/-- The first check of every command: refused, with nothing changed, while `FAULT` is not 0 (R92, R93);
no step at all while the serializer is `Shifting` (R105, assumption log 8). -/
def whenReady (s : State) (body : State → Result) : Result :=
  match s.ser with
  | .shifting _ _ _ => .refused .overlappingCommand
  | .idle => if s.fault = .none then body s else .next s

/-- The checks of a command other than `INIT`: `NOT_INIT` while `INITED` is 0 (R93). -/
def whenInited (s : State) (body : State → Result) : Result :=
  whenReady s fun s => if s.inited then body s else .next (raise .notInit s)

/-! ### The lock-detect input -/

/-- `sample(LD_IN)`: the next level the environment supplies, else a free value (R10, R19, R78,
assumption log 3). -/
def sampleLd (s : State) : Bool × State :=
  match s.ldIn with
  | b :: rest => (b, { s with ldIn := rest })
  | [] => (Config.ldIn s.ldDraws, { s with ldDraws := s.ldDraws + 1 })

/-! ### Bodies shared by commands -/

/-- A setting command after its settings field is written: insert the field into one register, send that
register, respond (R73 to R76, R84). -/
def insertAndSend (i : RegIx) (hi lo v : Nat) (s : State) : Result :=
  match insertField (s.reg.get i) hi lo v with
  | none => .fault .insertOutOfWidth
  | some w => .next (respond true 0 (transmit [i] { s with reg := s.reg.set i w }))

/-- `SetFreqBody(hz)`, also called by `INIT` (R71). -/
def setFreqBody (P : Params) (hz : Int) (s : State) : SetFreqResult :=
  if InRange hz then
    match freqCalc P hz s.S.ref with
    | .error code => .raised (raise code s)
    | .ok c =>
      let s := transmit fullUpdate { s with reg := composeAll P s.S c }
      .done { s with S := { s.S with fout := hz } }
  else .rejected

/-- `SET_FREQ` after its checks (R71). -/
def setFreqWith (P : Params) (hz : Int) (s : State) : State :=
  match setFreqBody P hz s with
  | .rejected => respond false 0 s
  | .raised s' => s'
  | .done s' => respond true 0 s'

/-- The part of `INIT` before the body of `SET_FREQ`: reference, lines, default settings, baseline and
its full update (R58). -/
def initPrepare (P : Params) (ref : Int) (s : State) : State :=
  let s := { s with S := { s.S with ref := ref } }
  let s := pinsIdle P s
  let s := { s with
    S := { s.S with pwr := 3, outen := true, lownoise := true, phase := 0, fout := 0 } }
  transmit fullUpdate { s with reg := P.baseline }

/-- The end of `INIT`: `INITED <- 1`, `respond(1, 0)` (R58). -/
def initFinish (s : State) : State := respond true 0 { s with inited := true }

/-- `INIT` after the checks of R93 (R58). -/
def initBody (P : Params) (ref : Int) (s : State) : State :=
  match setFreqBody P initFreq (initPrepare P ref s) with
  | .rejected => initFinish (initPrepare P ref s)
  | .raised s' => s'
  | .done s' => initFinish s'

/-- `INIT` with its checks: `REINIT`, then `REF_RANGE` (R58, R93). -/
def initWith (P : Params) (ref : Int) (s : State) : State :=
  if s.inited then raise .reinit s
  else if ref < P.refMinHz ∨ ref > P.refMaxHz then raise .refRange s
  else initBody P ref s

/-- `SET_POWER` after its checks (R73, R53). -/
def setPowerWith (P : Params) (level : Int) (s : State) : Result :=
  let lvl := clampPower level
  let i : RegIx := match P.powerField with | .reg3 => .r3 | .reg4 => .r4
  insertAndSend i 4 3 lvl.val { s with S := { s.S with pwr := lvl } }

/-- `ENABLE_OUTPUT` after its checks: set = disabled (R74, R54). -/
def outputEnableTo (en : Bool) (s : State) : Result :=
  insertAndSend .r4 5 5 (bit (!en)) { s with S := { s.S with outen := en } }

/-- `SET_PHASE` after its checks (R75). -/
def phaseTo (phase : Int) (s : State) : Result :=
  let v := clampPhase phase
  insertAndSend .r1 26 15 v.val { s with S := { s.S with phase := v } }

/-- `SET_LOW_NOISE` after its checks (R76, R52). -/
def noiseModeTo (P : Params) (ln : Bool) (s : State) : Result :=
  insertAndSend .r2 30 29 (noiseValue P ln) { s with S := { s.S with lownoise := ln } }

/-- A register word handed to the serializer on its own: one `WriteWord` (R80, V-SER-1, V-SER-2;
assumption log 7). -/
def sendWord (w : Word) (s : State) : Result :=
  whenReady s fun s => .next (writeWord w s)

end Sys2Proof.Machine
end

