-- ==== Sys2Proof/Machine/Init.lean ====
section
/-! DEFINITION. The meaning of `INIT` (spec 40_initialize.md R58 to R60). -/

namespace Sys2Proof.Machine

/-- `INIT`: `ref = sext_64(ARG)` (R58). -/
def execInit (arg : Arg) (s : State) : Result :=
  whenReady s fun s => .next (initWith hw (argInt arg) s)

end Sys2Proof.Machine
end

