-- ==== Sys2Proof/Machine/SetFreq.lean ====
section
/-! DEFINITION. The meaning of `SET_FREQ` (spec 41_frequency.md R71). -/

namespace Sys2Proof.Machine

/-- `SET_FREQ`: `hz = sext_64(ARG)` (R71). -/
def execSetFreq (arg : Arg) (s : State) : Result :=
  whenInited s fun s => .next (setFreqWith hw (argInt arg) s)

end Sys2Proof.Machine
end

