-- ==== Sys2Proof/Machine/Settings.lean ====
section
/-! DEFINITION. The meanings of the setting commands and their pseudo-instructions (spec 42_settings.md R73 to R76,
30_encoding.md R43). -/

namespace Sys2Proof.Machine

/-- `SET_POWER` (R73). -/
def execSetPower (arg : Arg) (s : State) : Result :=
  whenInited s fun s => setPowerWith hw (argInt arg) s

/-- `ENABLE_OUTPUT` (R74). -/
def execEnableOutput (arg : Arg) (s : State) : Result :=
  whenInited s fun s => outputEnableTo (argBool arg) s

/-- `DISABLE_OUTPUT`, that is `ENABLE_OUTPUT false` (R43, R74). -/
def execDisableOutput (s : State) : Result :=
  whenInited s fun s => outputEnableTo false s

/-- `SET_PHASE` (R75). -/
def execSetPhase (arg : Arg) (s : State) : Result :=
  whenInited s fun s => phaseTo (argInt arg) s

/-- `SET_LOW_NOISE` (R76). -/
def execSetLowNoise (arg : Arg) (s : State) : Result :=
  whenInited s fun s => noiseModeTo hw (argBool arg) s

/-- `SET_LOW_SPUR`, that is `SET_LOW_NOISE false` (R43, R76). -/
def execSetLowSpur (s : State) : Result :=
  whenInited s fun s => noiseModeTo hw false s

end Sys2Proof.Machine
end

