-- ==== Sys2Proof/Machine/Status.lean ====
section
/-! DEFINITION. The meanings of the status commands (spec 43_status.md R77, R78) and of the reserved operation
codes (30_encoding.md R41). -/

namespace Sys2Proof.Machine

/-- `GET_FREQ`: `respond(1, S.fout)`; `ARG` is ignored (R77). -/
def execGetFreq (_arg : Arg) (s : State) : Result :=
  whenInited s fun s => .next (respond true (freqValue s.S.fout) s)

/-- `IS_LOCKED`: `respond(1, bit(sample(LD_IN)))`; `ARG` is ignored (R78). -/
def execIsLocked (_arg : Arg) (s : State) : Result :=
  whenInited s fun s => .next (respond true (boolValue (sampleLd s).1) (sampleLd s).2)

/-- A reserved code raises `BAD_OP`; nothing else happens (R41, R90, R93). -/
def execReserved (_code : BitVec 3) (_arg : Arg) (s : State) : Result :=
  whenReady s fun s => .next (raise .badOp s)

end Sys2Proof.Machine
end

