-- ==== Sys2Proof/Machine/Words.lean ====
section
/-! DEFINITION. The meanings of the register words on the serial bus: one transfer of the word, which the receiver
takes into the latch of its address (spec 30_encoding.md R44 to R51, R56, R57; 44_serializer.md R80, R87). -/

namespace Sys2Proof.Machine

/-- Register word 0 (R46). -/
def execReg0IntFrac (f : Reg0Word) (s : State) : Result := sendWord f.toWord s

/-- Register word 1 (R47). -/
def execReg1PhaseModPrescaler (f : Reg1Word) (s : State) : Result := sendWord f.toWord s

/-- Register word 2 (R48). -/
def execReg2NoiseRefMux (f : Reg2Word) (s : State) : Result := sendWord f.toWord s

/-- Register word 3 (R49). -/
def execReg3PowerCp (f : Reg3Word) (s : State) : Result := sendWord f.toWord s

/-- Register word 4 (R50). -/
def execReg4RfdivBscOuten (f : Reg4Word) (s : State) : Result := sendWord f.toWord s

/-- Register word 5 (R51). -/
def execReg5LdPin (f : Reg5Word) (s : State) : Result := sendWord f.toWord s

/-- A word with address 6 or 7: the receiver's latches are then open (R56, R87, 93 U1). -/
def execRegAddr67 (f : Reg67Word) (s : State) : Result := sendWord f.toWord s

end Sys2Proof.Machine
end

