-- ==== Sys2Proof/Machine/Dispatch.lean ====
section
/-! DEFINITION. One arm per row of spec/opcode_table.json. -/

namespace Sys2Proof.Machine

def exec (i : Instr) (s : State) : Host.Outcome State Fault Refusal :=
  match i with
  | .init arg => Sys2Proof.Machine.execInit arg s
  | .setFreq arg => Sys2Proof.Machine.execSetFreq arg s
  | .setPower arg => Sys2Proof.Machine.execSetPower arg s
  | .enableOutput arg => Sys2Proof.Machine.execEnableOutput arg s
  | .setPhase arg => Sys2Proof.Machine.execSetPhase arg s
  | .setLowNoise arg => Sys2Proof.Machine.execSetLowNoise arg s
  | .getFreq arg => Sys2Proof.Machine.execGetFreq arg s
  | .isLocked arg => Sys2Proof.Machine.execIsLocked arg s
  | .reserved code arg => Sys2Proof.Machine.execReserved code arg s
  | .disableOutput => Sys2Proof.Machine.execDisableOutput s
  | .setLowSpur => Sys2Proof.Machine.execSetLowSpur s
  | .reg0IntFrac f => Sys2Proof.Machine.execReg0IntFrac f s
  | .reg1PhaseModPrescaler f => Sys2Proof.Machine.execReg1PhaseModPrescaler f s
  | .reg2NoiseRefMux f => Sys2Proof.Machine.execReg2NoiseRefMux f s
  | .reg3PowerCp f => Sys2Proof.Machine.execReg3PowerCp f s
  | .reg4RfdivBscOuten f => Sys2Proof.Machine.execReg4RfdivBscOuten f s
  | .reg5LdPin f => Sys2Proof.Machine.execReg5LdPin f s
  | .regAddr67 f => Sys2Proof.Machine.execRegAddr67 f s

end Sys2Proof.Machine
end

