-- ==== Sys2Proof/Machine/Step.lean ====
section
/-! DEFINITION. One step: the next item of the issue stream, executed to completion (spec 00_scope.md R6,
20_memory.md R32, R33); a transfer in progress goes first, one pin event a step, and holds the stream (10_state.md
R21, 70_reset_and_hazards.md R105). -/

namespace Sys2Proof.Machine

/-- One step of the machine. With nothing issued the block waits, unchanged (assumption log 6). -/
def step (s : State) : Host.Outcome State Fault Refusal :=
  match s.ser with
  | .shifting _ _ _ => .next (serTick s)
  | .idle =>
    match s.issue with
    | [] => .next s
    | item :: rest => exec (decode item) { s with issue := rest }

/-- The state with an instruction's bits issued next: at the head of the issue stream, the serializer
idle. Bits that are no item leave the state as it is. -/
def State.withFetchWord (s : State) (nbits w : Nat) : State :=
  match Issue.ofBits nbits w with
  | .ok item => { s with issue := item :: s.issue, ser := .idle }
  | .error _ => s

end Sys2Proof.Machine
end

