-- ==== Sys2Proof/Safety.lean ====
section
/-! DEFINITION. What claims are stated in terms of: the observation and the good end of a run (spec 00_scope.md
R11, 70_reset_and_hazards.md R109), the invariants of the block (10_state.md R13, R18, R21, R22; 44_serializer.md
R87), the register words it may produce (30_encoding.md R56), and when a timed event list meets the bounds of
44_serializer.md R85. -/

namespace Sys2Proof.Machine

/-! ### Runs -/

/-- The observation of a run: pin events, responses, `FAULT` (R11). -/
structure Observation where
  events : List PinEvent
  responses : List Response
  fault : FaultCode
  deriving DecidableEq, Repr

def State.observe (s : State) : Observation :=
  { events := s.events, responses := s.responses, fault := s.fault }

/-- "The run is good when FAULT = 0 at its end" (R109). -/
def State.Good (s : State) : Prop := s.fault = .none

/-- The power-on state with a list of command words issued. -/
def State.issued (cs : List (BitVec 68)) : State :=
  { State.reset with issue := cs.map Issue.command }

/-- A run: the power-on state followed by a finite list of commands, each executed to completion (R109). -/
def runCommands (cs : List (BitVec 68)) : Result :=
  Host.Core.run Sys2Proof.core cs.length (State.issued cs)

/-! ### Invariants -/

/-- The next item of the issue stream is not a register word: the block runs commands only (R106). -/
def State.NextIsCommand (s : State) : Prop := ∀ w rest, s.issue ≠ Issue.busWord w :: rest

/-- `REG[i][2:0] = i` for each `i` in 0..5 (R13). -/
def AddressesOk (r : RegFile) : Prop := ∀ i : RegIx, addrOf (r.get i) = i.addr

/-- The bus-idle levels of `LE` and `CLK` (R18, R80). -/
structure BusIdle (b : Bus) : Prop where
  le : b.pins.le = some true
  clk : b.pins.clk = some false

/-- What holds at a command boundary once `INIT` has completed. -/
structure Initialised (s : State) : Prop where
  /-- The reference is within its bounds (R14). -/
  refMin : hw.refMinHz ≤ s.S.ref
  refMax : s.S.ref ≤ hw.refMaxHz
  /-- The output frequency is in range (R14). -/
  fout : InRange s.S.fout
  /-- `REG[i] = Compose(i, S, FreqCalc(S.fout, S.ref))` (R22). -/
  consistent : ∃ c, freqCalc hw s.S.fout s.S.ref = .ok c ∧ s.reg = composeAll hw s.S c
  /-- `LE` = 1 and `CLK` = 0 (R18). -/
  idle : BusIdle s.bus
  /-- Chip-enable is asserted (R18, R88). -/
  ce : s.bus.pins.ce = some hw.ceOn
  /-- `DEV_REG[i] = REG[i]` (R87). -/
  receiver : s.bus.dev.reg = s.reg

/-- What holds at a command boundary before `INIT` has completed: no line is driven, nothing has been
emitted, no frequency is programmed (R18, R25). -/
structure Fresh (s : State) : Prop where
  le : s.bus.pins.le = none
  clk : s.bus.pins.clk = none
  data : s.bus.pins.data = none
  ce : s.bus.pins.ce = none
  events : s.events = []
  fout : s.S.fout = 0

/-- The invariant of command boundaries. -/
structure Inv (s : State) : Prop where
  /-- The serializer is `Idle` (R21). -/
  serIdle : s.ser = .idle
  initialised : s.inited = true → Initialised s
  fresh : s.inited = false → Fresh s

/-! ### What statements about commands share -/

/-- An initialised block that is not faulted, at a command boundary: where the host's commands have
their effect (R92, R93, R105). -/
structure State.Accepts (s : State) : Prop where
  serIdle : s.ser = .idle
  noFault : s.fault = .none
  inited : s.inited = true

/-- The pin events of whole words sent one after another (R28, R83). -/
def sentWords (ws : List Word) : List PinEvent := ws.flatMap wordEvents

/-- The words of a full update of a register file, in the order of R34. -/
def fullUpdateWords (r : RegFile) : List Word := [r.r5, r.r4, r.r3, r.r2, r.r1, r.r0]

/-- What a setting command leaves: settings `S'`, the field `[hi:lo]` of register `i` holding `v` with
every other bit of every register as before, that one word sent, response (1, 0), and everything else
of the block as before (R73 to R76, R84). -/
structure SettingDone (s t : State) (S' : Settings) (i : RegIx) (hi lo v : Nat) : Prop where
  settings : t.S = S'
  field : ∀ k, (t.reg.get i).getLsbD k
    = if lo ≤ k ∧ k ≤ hi then v.testBit (k - lo) else (s.reg.get i).getLsbD k
  others : ∀ j, j ≠ i → t.reg.get j = s.reg.get j
  events : t.events = s.events ++ wordEvents (t.reg.get i)
  pins : t.bus.pins =
    { le := some true, clk := some false, data := some ((t.reg.get i).getLsbD 0),
      ce := s.bus.pins.ce }
  respOk : t.respOk = true
  respVal : t.respVal = 0
  responses : t.responses = s.responses ++ [{ ok := true, val := 0 }]
  inited : t.inited = s.inited
  fault : t.fault = s.fault
  ser : t.ser = s.ser
  issue : t.issue = s.issue
  ldIn : t.ldIn = s.ldIn
  ldDraws : t.ldDraws = s.ldDraws

/-- The code `FAULT` holds after a command, by the check order of R93. A register word is no command. -/
def faultByCheckOrder (i : Instr) (s : State) : FaultCode :=
  if s.fault ≠ .none then s.fault
  else match i with
    | .reserved _ _ => .badOp
    | .init arg =>
      if s.inited then .reinit
      else if arg.toInt < 67139 ∨ 29333333 < arg.toInt then .refRange
      else .none
    | .setFreq arg =>
      if s.inited = false then .notInit
      else if ¬ InRange arg.toInt then .none
      else match freqCalc hw arg.toInt s.S.ref with
        | .error code => code
        | .ok _ => .none
    | .setPower _ => if s.inited then .none else .notInit
    | .enableOutput _ => if s.inited then .none else .notInit
    | .setPhase _ => if s.inited then .none else .notInit
    | .setLowNoise _ => if s.inited then .none else .notInit
    | .getFreq _ => if s.inited then .none else .notInit
    | .isLocked _ => if s.inited then .none else .notInit
    | .disableOutput => if s.inited then .none else .notInit
    | .setLowSpur => if s.inited then .none else .notInit
    | .reg0IntFrac _ => .none
    | .reg1PhaseModPrescaler _ => .none
    | .reg2NoiseRefMux _ => .none
    | .reg3PowerCp _ => .none
    | .reg4RfdivBscOuten _ => .none
    | .reg5LdPin _ => .none
    | .regAddr67 _ => .none

/-! ### Register words the block may produce (R46 to R51, R56) -/

/-- The static and reserved fields are as the block writes them and the dynamic fields hold values it
can compute, at the parameters of this hardware. -/
def BlockProduces : Instr → Prop
  | .reg0IntFrac f => f.rsvd = 0 ∧ f.frac.toNat ≤ 1000
  | .reg1PhaseModPrescaler f => f.rsvd = 0 ∧ f.phaseAdj = 0 ∧ f.mod = 1000
  | .reg2NoiseRefMux f =>
    f.rsvd = 0 ∧ f.lowSpur ≠ f.lowNoise ∧ f.muxout = 0b110 ∧ f.refDoubler = 0 ∧ f.refDiv2 = 0
      ∧ f.rCounter = 1 ∧ f.doubleBuffer = 0 ∧ f.cpCurrent = 0b0111 ∧ f.ldf = 0 ∧ f.ldp = 0
      ∧ f.pdPolarity = 1 ∧ f.powerDown = 0 ∧ f.cpThreeState = 0 ∧ f.counterReset = 0
  | .reg3PowerCp f =>
    f.rsvdHi = 0 ∧ f.bscMode = 0 ∧ f.abp = 0 ∧ f.chargeCancel = 0 ∧ f.rsvdMid = 0 ∧ f.csr = 0
      ∧ f.rsvdLo = 0 ∧ f.clkDivMode = 0 ∧ f.clkDivHi = 37
  | .reg4RfdivBscOuten f =>
    f.rsvd = 0 ∧ f.fbSelect = 1 ∧ f.rfDivSel.toNat ≤ 6 ∧ 1 ≤ f.bscDiv.toNat
      ∧ f.vcoPowerDown = 0 ∧ f.mtld = 0 ∧ f.auxSelect = 0 ∧ f.auxEnable = 0 ∧ f.auxPower = 0
      ∧ f.rfPower = 0b11
  | .reg5LdPin f =>
    f.rsvdHi = 0 ∧ f.ldPinMode = 0b01 ∧ f.rsvd21 = 0 ∧ f.rsvdOnes = 0b11 ∧ f.rsvdLo = 0
  | .regAddr67 _ => False
  | .init _ => False
  | .setFreq _ => False
  | .setPower _ => False
  | .enableOutput _ => False
  | .setPhase _ => False
  | .setLowNoise _ => False
  | .getFreq _ => False
  | .isLocked _ => False
  | .reserved _ _ => False
  | .disableOutput => False
  | .setLowSpur => False

/-! ### Timed event lists (R85) -/

/-- A pin event with the time it happens at, in the unit of the bounds of R85. -/
structure TimedEvent where
  event : PinEvent
  time : Nat
  deriving DecidableEq, Repr

/-- The first later event that satisfies `p`, if there is one, is at least `bound` after `e`. -/
def DelayedUntil (bound : Nat) (p : PinEvent → Bool) (e : TimedEvent) (rest : List TimedEvent) : Prop :=
  match rest.find? fun f => p f.event with
  | some f => e.time + bound ≤ f.time
  | none => True

/-- The bound of R85 that starts at an event. -/
def MeetsBound (e : TimedEvent) (rest : List TimedEvent) : Prop :=
  match e.event.line, e.event.level with
  | .data, _ => DelayedUntil Config.tSetup (fun f => f.line == .clk && f.level) e rest
  | .clk, true => DelayedUntil Config.tClkHigh (fun f => f.line == .clk && !f.level) e rest
  | .clk, false =>
    DelayedUntil Config.tClkLow (fun f => (f.line == .clk || f.line == .le) && f.level) e rest
  | .le, true => DelayedUntil Config.tLeHold (fun f => f.line == .le && !f.level) e rest
  | .le, false => True
  | .ce, _ => True

/-- A timed event list is in order of time and meets every bound of R85. -/
def RespectsTiming : List TimedEvent → Prop
  | [] => True
  | e :: rest => (∀ f ∈ rest, e.time ≤ f.time) ∧ MeetsBound e rest ∧ RespectsTiming rest

end Sys2Proof.Machine
end

