-- ==== Sys2Proof/Certificates/Slice0/Obligations.lean ====
section
/-! DEFINITION. The statements for the provers. Each docstring names the rule of spec/ it formalises, and the log
entry where a clause is the model's choice. -/

open Sys2Proof Sys2Proof.Machine

/-! ### Reset and steps -/

/-- R102: power-on gives these values; `REG` and the other settings are unspecified there, so nothing is said of
them. -/
def Obligations.ResetIsPowerOnState : Prop :=
  State.reset.inited = false ∧ State.reset.fault = .none ∧ State.reset.S.fout = 0
    ∧ State.reset.respOk = false ∧ State.reset.respVal = 0
    ∧ State.reset.bus.pins = { le := none, clk := none, data := none, ce := none }
    ∧ State.reset.ser = .idle

/-- R33 and R105: the next issued item is decoded and executed; with nothing issued the block waits (the
model's choice, log 6); while the serializer is `Shifting` a step is its next pin event and the stream is
held (log 8). -/
def Obligations.StepExecutesTheNextIssuedItem : Prop :=
  ∀ s : State,
    (∀ item rest, s.ser = .idle → s.issue = item :: rest →
      step s = exec (decode item) { s with issue := rest })
    ∧ (s.ser = .idle → s.issue = [] → step s = .next s)
    ∧ (∀ w i b, s.ser = .shifting w i b → step s = .next (serTick s))

/-- No state makes a step stop: the sentence "Every command completes in a finite number of steps" of R109, which the
spec derives, for this model's step (logs 6, 8, 10). -/
def Obligations.EveryStepAnswersNext : Prop :=
  ∀ s : State, ∃ t, step s = .next t

/-- A run in the sense of R109, of any list of commands from power-on, completes with nothing left to issue and ends
in the invariant of command boundaries (the issue stream is log 6). Completion is R109's derived sentence; the
invariant is R13, R18, R21, R22 and R87 as the spec derives them, R25 before `INIT`, and log 9 for the empty
event list. -/
def Obligations.EveryRunOfCommandsCompletes : Prop :=
  ∀ cs : List (BitVec 68), ∃ t, runCommands cs = .next t ∧ t.issue = [] ∧ Inv t

/-! ### Encodings -/

/-- Words written out from R39 to R51 decode to the instructions they stand for. That 0x30000000000000000 reads as
`DISABLE_OUTPUT`, and not as `ENABLE_OUTPUT false`, the same word by R40 and R43, is the model's choice (log 15). -/
def Obligations.WrittenOutWordsDecode : Prop :=
  decode (.command 0x10000000008A48640) = .setFreq 145000000
    ∧ decode (.command 0x2FFFFFFFFFFFFFFFF) = .setPower (-1)
    ∧ decode (.command 0x30000000000000000) = .disableOutput
    ∧ decode (.command 0xF0000000000000007) = .reserved 7 7
    ∧ decode (.busWord 0x002E1900) = .reg0IntFrac { rsvd := 0, int := 92, frac := 800 }
    ∧ decode (.busWord 0x00DC803C) = .reg4RfdivBscOuten
        { rsvd := 0, fbSelect := 1, rfDivSel := 5, bscDiv := 200, vcoPowerDown := 0, mtld := 0,
          auxSelect := 0, auxEnable := 0, auxPower := 0, outDisable := 1, rfPower := 3 }

/-- Decoding the encoding of a well-formed instruction gives it back, every operand at every value
(R39 to R57). That `ENABLE_OUTPUT 0` and `SET_LOW_NOISE 0` read as pseudo-instructions is log 15. -/
def Obligations.DecodeAfterEncode : Prop :=
  ∀ i : Instr, i.WellFormed = true → decode (encode i) = i

/-- Every 68-bit and every 32-bit word is the encoding of the well-formed instruction it decodes to:
no bit of a word is dropped (R39, R57). -/
def Obligations.EncodeAfterDecode : Prop :=
  ∀ item : Issue, (decode item).WellFormed = true ∧ encode (decode item) = item

/-- R43: the pseudo-instructions are spellings, in their meaning and in the assembler (at the level of tokens,
log 12). -/
def Obligations.PseudoInstructionsExpand : Prop :=
  (∀ s, exec .disableOutput s = exec (.enableOutput 0) s)
    ∧ (∀ s, exec .setLowSpur s = exec (.setLowNoise 0) s)
    ∧ assemble .disableOutput none = assemble .enableOutput (some (.boolean false))
    ∧ assemble .setLowSpur none = assemble .setLowNoise (some (.boolean false))
    ∧ assemble .getFreq none = some (commandWord 0x6 0)
    ∧ assemble .isLocked none = some (commandWord 0x7 0)
    ∧ assemble .setFreq (some (.number 145000000)) = some 0x10000000008A48640

/-- R45: `Insert` clears exactly the bits of the field and puts the value there; outside its condition it
has no value. -/
def Obligations.InsertWritesExactlyItsField : Prop :=
  ∀ (w : Word) (hi lo v : Nat),
    (3 ≤ lo ∧ lo ≤ hi ∧ hi ≤ 31 ∧ v < 2 ^ (hi - lo + 1) →
      ∃ w', insertField w hi lo v = some w'
        ∧ ∀ k, k < 32 → w'.getLsbD k = if lo ≤ k ∧ k ≤ hi then v.testBit (k - lo) else w.getLsbD k)
    ∧ (¬ (3 ≤ lo ∧ lo ≤ hi ∧ hi ≤ 31 ∧ v < 2 ^ (hi - lo + 1)) → insertField w hi lo v = none)

/-- R46 to R51: the composed words hold, field by field, the values of those tables. -/
def Obligations.ComposedWordsHoldTheirFields : Prop :=
  ∀ (S : Settings) (c : Calc), 0 ≤ c.int → c.int < 65536 → 0 ≤ c.frac → c.frac < 4096 → c.d < 8 →
    0 ≤ c.bsc → c.bsc < 256 →
    decodeBusWord (compose hw .r0 S c) = .reg0IntFrac
        { rsvd := 0, int := BitVec.ofInt 16 c.int, frac := BitVec.ofInt 12 c.frac }
    ∧ decodeBusWord (compose hw .r1 S c) = .reg1PhaseModPrescaler
        { rsvd := 0, phaseAdj := 0, prescaler := BitVec.ofBool c.p,
          phase := BitVec.ofNat 12 S.phase.val, mod := 1000 }
    ∧ decodeBusWord (compose hw .r2 S c) = .reg2NoiseRefMux
        { rsvd := 0, lowSpur := BitVec.ofBool (!S.lownoise), lowNoise := BitVec.ofBool S.lownoise,
          muxout := 0b110, refDoubler := 0, refDiv2 := 0, rCounter := 1, doubleBuffer := 0,
          cpCurrent := 0b0111, ldf := 0, ldp := 0, pdPolarity := 1, powerDown := 0,
          cpThreeState := 0, counterReset := 0 }
    ∧ decodeBusWord (compose hw .r3 S c) = .reg3PowerCp
        { rsvdHi := 0, bscMode := 0, abp := 0, chargeCancel := 0, rsvdMid := 0, csr := 0,
          rsvdLo := 0, clkDivMode := 0, clkDivHi := 37, power := BitVec.ofNat 2 S.pwr.val }
    ∧ decodeBusWord (compose hw .r4 S c) = .reg4RfdivBscOuten
        { rsvd := 0, fbSelect := 1, rfDivSel := BitVec.ofNat 3 c.d, bscDiv := BitVec.ofInt 8 c.bsc,
          vcoPowerDown := 0, mtld := 0, auxSelect := 0, auxEnable := 0, auxPower := 0,
          outDisable := BitVec.ofBool (!S.outen), rfPower := 0b11 }
    ∧ compose hw .r5 S c = 0x00580005

/-- R60: the baseline words are the composition of the default settings with INT 88, FRAC 0, prescaler 0,
exponent 5 and band-select divider 200. -/
def Obligations.BaselineIsComposed : Prop :=
  ∀ (S : Settings) (c : Calc), S.pwr = 3 → S.outen = true → S.lownoise = true → S.phase = 0 →
    c.int = 88 → c.frac = 0 → c.p = false → c.d = 5 → c.bsc = 200 →
    composeAll hw S c = baselineWords

/-- R52, R53, R56: the alternative values of `NOISE_BITS` and `POWER_FIELD`. Under `DatasheetPair` the noise
bits are 0b00 or 0b11; with the power field in register 4, `SET_POWER` changes bits [4:3] of register 4
and sends that register, and the composition puts the level there. -/
def Obligations.AlternativeFieldParameters : Prop :=
  ∀ (P : Params) (S : Settings) (c : Calc),
    (P.noiseBits = .datasheetPair → P.base = baseWords →
      slice (compose P .r2 S c) 29 2 = if S.lownoise then 0b00#2 else 0b11#2)
    ∧ (P.powerField = .reg4 → P.base = baseWords →
      slice (compose P .r4 S c) 3 2 = BitVec.ofNat 2 S.pwr.val
      ∧ compose P .r3 S c = 0x000004A3)
    ∧ (P.powerField = .reg4 → ∀ s level, ∃ t, setPowerWith P level s = .next t
      ∧ SettingDone s t { s.S with pwr := clampPower level } .r4 4 3 (clampPower level).val)

/-! ### Faults -/

/-- R41: a reserved operation code faults with `BAD_OP`, and nothing else happens. -/
def Obligations.ReservedCodeRaisesBadOp : Prop :=
  ∀ (s : State) (code : BitVec 3) (arg : Arg), s.ser = .idle → s.fault = .none →
    exec (.reserved code arg) s = .next { s with fault := .badOp }

/-- R92: while `FAULT` is not 0 every command, `INIT` included, changes no state, emits no pin event and
writes no response. -/
def Obligations.FaultedBlockRefusesEveryCommand : Prop :=
  ∀ (s : State) (i : Instr), i.IsCommand = true → s.ser = .idle → s.fault ≠ .none →
    exec i s = .next s

/-- R104: before a successful `INIT` every other command of the contract faults with `NOT_INIT`; after it
an `INIT` faults with `REINIT`. The reserved codes come first in the order of R93. -/
def Obligations.InitMustComeFirstAndOnce : Prop :=
  ∀ (s : State), s.ser = .idle → s.fault = .none →
    (s.inited = false → ∀ i : Instr, i.IsCommand = true → (∀ arg, i ≠ .init arg) →
      (∀ code arg, i ≠ .reserved code arg) → exec i s = .next { s with fault := .notInit })
    ∧ (s.inited = true → ∀ arg, exec (.init arg) s = .next { s with fault := .reinit })

/-- R93: `FAULT` after a command is the code of the first check that applies. That every command completes is R109's
derived sentence, and that an `INIT` with its reference in bounds leaves `FAULT` at 0 is R58's own derived sentence,
from R72. -/
def Obligations.FaultFollowsTheCheckOrder : Prop :=
  ∀ (i : Instr) (s : State), i.IsCommand = true → s.ser = .idle →
    ∃ t, exec i s = .next t ∧ t.fault = faultByCheckOrder i s

/-- R91: faults are precise: a command that raises one leaves the state of the previous command boundary
with `FAULT` set. (The exception R91 names, an `INT_RANGE` inside `INIT`, cannot happen at the default
configuration.) -/
def Obligations.FaultsArePrecise : Prop :=
  ∀ (i : Instr) (s t : State), i.IsCommand = true → s.fault = .none → exec i s = .next t →
    t.fault ≠ .none → t = { s with fault := t.fault }

/-- R91 for other configurations: an `INT_RANGE` raised inside `INIT` comes after `PinsIdle` and the
baseline transfer, whose events and words remain; no response, `INITED` still 0. -/
def Obligations.IntRangeInsideInitKeepsTheBaseline : Prop :=
  ∀ (P : Params) (ref : Int) (s : State) (code : FaultCode), s.fault = .none → s.inited = false →
    freqCalc P 100000000 ref = .error code →
    (initBody P ref s).fault = .intRange
    ∧ (initBody P ref s).inited = false
    ∧ (initBody P ref s).reg = P.baseline
    ∧ (initBody P ref s).events
      = s.events ++ pinsIdleEvents P ++ sentWords (fullUpdateWords P.baseline)
    ∧ (initBody P ref s).responses = s.responses

/-- R15, R16: no step clears `INITED` or changes a fault once recorded; only an `INIT` sets `INITED`, and
then no fault is recorded. -/
def Obligations.InitedAndFirstFaultAreKept : Prop :=
  ∀ s t : State, step s = .next t →
    (s.inited = true → t.inited = true)
    ∧ (s.fault ≠ .none → t.fault = s.fault)
    ∧ (s.inited = false → t.inited = true →
      t.fault = .none ∧ ∃ item rest arg, s.issue = item :: rest ∧ decode item = .init arg)

/-! ### Initialization -/

/-- R58 with R59 and the words of R60: a second `INIT` faults with `REINIT`, a reference out of bounds faults with
`REF_RANGE` and leaves the block uninitialised, and a reference in bounds programs 100 MHz. `DATA` at the end is
R82's; that the receiver then holds `REG`, with `DEV_SR` = R0, is derived in the spec (R87; `DEV_REG` also in R25's
table); that the calculation cannot fault is R58's own derived sentence, from R72. The model's counter of open
receiver events (logs 4, 5) is not spoken of. -/
def Obligations.InitProgramsOneHundredMegahertz : Prop :=
  ∀ (s : State) (arg : Arg), s.ser = .idle → s.fault = .none →
    (s.inited = true → exec (.init arg) s = .next { s with fault := .reinit })
    ∧ (s.inited = false → (arg.toInt < 67139 ∨ 29333333 < arg.toInt) →
      exec (.init arg) s = .next { s with fault := .refRange })
    ∧ (s.inited = false → 67139 ≤ arg.toInt → arg.toInt ≤ 29333333 →
    ∃ c t, freqCalc hw 100000000 arg.toInt = .ok c
      ∧ exec (.init arg) s = .next t
      ∧ t.S = { ref := arg.toInt, fout := 100000000, pwr := 3, outen := true, phase := 0,
                lownoise := true }
      ∧ t.reg = composeAll hw t.S c
      ∧ t.inited = true ∧ t.fault = .none
      ∧ t.respOk = true ∧ t.respVal = 0
      ∧ t.responses = s.responses ++ [{ ok := true, val := 0 }]
      ∧ t.events = s.events
          ++ [{ line := .le, level := true }, { line := .clk, level := false },
              { line := .data, level := false }, { line := .ce, level := true }]
          ++ sentWords [0x00580005, 0x00DC801C, 0x000004BB, 0x38004E42, 0x00001F41, 0x002C0000]
          ++ sentWords (fullUpdateWords t.reg)
      ∧ t.bus.pins = { le := some true, clk := some false, data := some (t.reg.r0.getLsbD 0),
                       ce := some true }
      ∧ t.bus.dev.reg = t.reg ∧ t.bus.dev.sr = t.reg.r0
      ∧ t.ser = s.ser ∧ t.issue = s.issue ∧ t.ldIn = s.ldIn ∧ t.ldDraws = s.ldDraws)

/-! ### Frequency -/

/-- R62: the tier table; values exactly at a breakpoint take the smaller exponent. -/
def Obligations.DividerExponentByTier : Prop :=
  ∀ hz : Int, InRange hz →
    (dividerExp hz = 6 ↔ hz < 68750000)
    ∧ (dividerExp hz = 5 ↔ 68750000 ≤ hz ∧ hz < 137500000)
    ∧ (dividerExp hz = 4 ↔ 137500000 ≤ hz ∧ hz < 275000000)
    ∧ (dividerExp hz = 3 ↔ 275000000 ≤ hz ∧ hz < 550000000)
    ∧ (dividerExp hz = 2 ↔ 550000000 ≤ hz ∧ hz < 1100000000)
    ∧ (dividerExp hz = 1 ↔ 1100000000 ≤ hz ∧ hz < 2200000000)
    ∧ (dividerExp hz = 0 ↔ 2200000000 ≤ hz)

/-- R63 and R72 items 3 and 4 (which the spec derives): the VCO frequency lies in its band for every frequency in range, and the
divider exponent never increases with the frequency. -/
def Obligations.VcoStaysInItsBand : Prop :=
  (∀ hz : Int, InRange hz →
    vcoOf hz = hz * 2 ^ dividerExp hz ∧ 2200000000 ≤ vcoOf hz ∧ vcoOf hz ≤ 4400000000)
  ∧ (∀ f1 f2 : Int, InRange f1 → InRange f2 → f1 < f2 → dividerExp f2 ≤ dividerExp f1)

/-- R66: rounding to nearest with either tie rule, truncation, and the optional carry. -/
def Obligations.FracRoundsAsItsModeSays : Prop :=
  ∀ (P : Params) (vco pfd : Int), 0 < pfd → 0 ≤ vco →
    let r := vco % pfd
    let f := fracRound P r pfd
    (P.fracMode = .truncate → f * pfd ≤ r * 1000 ∧ r * 1000 < (f + 1) * pfd)
    ∧ (P.fracMode = .nearest → P.fracTie = .up →
      2 * f * pfd ≤ 2 * r * 1000 + pfd ∧ 2 * r * 1000 + pfd < 2 * (f + 1) * pfd)
    ∧ (P.fracMode = .nearest → P.fracTie = .down →
      2 * f * pfd < 2 * r * 1000 + pfd ∧ 2 * r * 1000 + pfd ≤ 2 * (f + 1) * pfd)
    ∧ 0 ≤ f ∧ f ≤ 1000
    ∧ (P.fracCarry = false → intFrac P vco pfd = (vco / pfd, f))
    ∧ (P.fracCarry = true →
      intFrac P vco pfd = if f = 1000 then (vco / pfd + 1, 0) else (vco / pfd, f))

/-- R67's case table: the prescaler bit under each policy; and R68's condition: "if `int < INT_MIN(p)` or
`int > INT_MAX`, the computation faults with `INT_RANGE`". -/
def Obligations.PrescalerAndIntLimits : Prop :=
  ∀ (P : Params) (hz ref : Int),
    (∀ t, P.prescaler = .threshold t → ((calcOf P hz ref).p = true ↔ t < vcoOf hz))
    ∧ (P.prescaler = .always89 → (calcOf P hz ref).p = true)
    ∧ (P.prescaler = .always45 → (calcOf P hz ref).p = false)
    ∧ (freqCalc P hz ref = .error .intRange ↔
        (calcOf P hz ref).int < (if (calcOf P hz ref).p then P.intMin89 else P.intMin45)
        ∨ P.intMax < (calcOf P hz ref).int)

/-- R69: the smallest divider that keeps the band-select clock at or below 125 kHz, limited to 1..255. The last
clause is the sentence of R69 that the spec derives from D13: "At the default bounds, `bsc` ranges from 1 (at
67,139 Hz) to 235 (at 29,333,333 Hz), so the clamp never applies". -/
def Obligations.BandSelectDividerIsSmallest : Prop :=
  ∀ pfd : Int, 0 < pfd →
    1 ≤ bscDiv hw pfd ∧ bscDiv hw pfd ≤ 255
    ∧ (pfd ≤ 31875000 → pfd ≤ 125000 * bscDiv hw pfd ∧ 125000 * (bscDiv hw pfd - 1) < pfd)
    ∧ (31875000 < pfd → bscDiv hw pfd = 255)
    ∧ (67139 ≤ pfd → pfd ≤ 29333333 → bscDiv hw pfd ≤ 235)

/-- At the default configuration the computation never faults (R68, R72 items 5 to 7, which the spec derives): it
answers the record of R62 to R70, each value by its own rule, and every value fits its field. -/
def Obligations.FrequencyCalculationNeverFaults : Prop :=
  ∀ hz ref : Int, InRange hz → 67139 ≤ ref → ref ≤ 29333333 →
    ∃ c, freqCalc hw hz ref = .ok c
      ∧ c.d = dividerExp hz ∧ c.vco = vcoOf hz ∧ c.pfd = ref
      ∧ c.int = c.vco / ref ∧ 2200000000 / ref ≤ c.int ∧ c.int ≤ 4400000000 / ref
      ∧ (if c.p then 75 else 23) ≤ c.int ∧ c.int ≤ 65535
      ∧ (ref = 25000000 → 88 ≤ c.int ∧ c.int ≤ 176)
      ∧ c.frac = fracRound hw (c.vco % ref) ref ∧ (c.p = true ↔ 3600000000 < c.vco) ∧ c.bsc = bscDiv hw ref
      ∧ 0 ≤ c.frac ∧ c.frac ≤ 1000 ∧ c.d ≤ 6 ∧ 1 ≤ c.bsc ∧ c.bsc ≤ 255

/-- R71: an out-of-range frequency is a Boolean failure with no other change; a calculation that faults raises its
code before anything is written (no initialised state at the default configuration makes one fault); otherwise
all six words are rewritten from the composition and sent in descending order. -/
def Obligations.SetFreqRewritesAllSixRegisters : Prop :=
  ∀ (s : State) (arg : Arg), s.Accepts →
    ((arg.toInt < 35000000 ∨ 4400000000 < arg.toInt) →
      exec (.setFreq arg) s = .next { s with
        respOk := false
        respVal := 0
        responses := s.responses ++ [{ ok := false, val := 0 }] })
    ∧ (35000000 ≤ arg.toInt → arg.toInt ≤ 4400000000 →
      (∀ code, freqCalc hw arg.toInt s.S.ref = .error code →
        code = .intRange ∧ exec (.setFreq arg) s = .next { s with fault := .intRange })
      ∧ (∀ c, freqCalc hw arg.toInt s.S.ref = .ok c →
        ∃ t, exec (.setFreq arg) s = .next t
          ∧ t.S = { s.S with fout := arg.toInt }
          ∧ (∀ i, t.reg.get i = compose hw i s.S c)
          ∧ t.events = s.events
              ++ sentWords [t.reg.r5, t.reg.r4, t.reg.r3, t.reg.r2, t.reg.r1, t.reg.r0]
          ∧ t.bus.pins = { le := some true, clk := some false, data := some (t.reg.r0.getLsbD 0),
                           ce := s.bus.pins.ce }
          ∧ t.respOk = true ∧ t.respVal = 0
          ∧ t.responses = s.responses ++ [{ ok := true, val := 0 }]
          ∧ t.inited = s.inited ∧ t.fault = s.fault ∧ t.ser = s.ser ∧ t.issue = s.issue
          ∧ t.ldIn = s.ldIn ∧ t.ldDraws = s.ldDraws))

/-- R72 items 1 and 2 (which the spec derives), the source's round trip: at a command boundary of a good run, a frequency in range
is accepted and read back; one out of range is rejected and the read-back is unchanged. -/
def Obligations.SetThenGetReturnsTheFrequency : Prop :=
  ∀ (s : State) (f any : Arg), Inv s → s.inited = true → s.fault = .none →
    (InRange f.toInt → ∃ t u, exec (.setFreq f) s = .next t ∧ t.respOk = true ∧ t.fault = .none
      ∧ exec (.getFreq any) t = .next u ∧ u.respOk = true ∧ u.respVal.toInt = f.toInt)
    ∧ (¬ InRange f.toInt → ∃ t u, exec (.setFreq f) s = .next t ∧ t.respOk = false
      ∧ t.reg = s.reg ∧ t.S = s.S ∧ t.bus = s.bus ∧ t.events = s.events
      ∧ exec (.getFreq any) t = .next u ∧ u.respVal.toInt = s.S.fout)

/-- R71, the corner case the spec derives: only R0, R1 and R4 can differ after a frequency change. -/
def Obligations.SetFreqLeavesSettingsWords : Prop :=
  ∀ (s t : State) (arg : Arg), Inv s → s.inited = true → exec (.setFreq arg) s = .next t →
    t.reg.r2 = s.reg.r2 ∧ t.reg.r3 = s.reg.r3 ∧ t.reg.r5 = s.reg.r5

/-! ### Settings -/

/-- R73: `SET_POWER`. -/
def Obligations.SetPowerWritesClampedLevel : Prop :=
  ∀ (s : State) (arg : Arg), s.Accepts →
    ∃ t lvl, exec (.setPower arg) s = .next t
      ∧ ((lvl : Fin 4).val : Int) = min (max arg.toInt 0) 3
      ∧ SettingDone s t { s.S with pwr := lvl } .r3 4 3 lvl.val

/-- R74: `ENABLE_OUTPUT` and its pseudo-instruction: the bit is set from the operand, set = disabled. -/
def Obligations.EnableOutputWritesInvertedBit : Prop :=
  ∀ (s : State), s.Accepts →
    (∀ arg, ∃ t, exec (.enableOutput arg) s = .next t
      ∧ SettingDone s t { s.S with outen := arg != 0 } .r4 5 5 (if arg = 0 then 1 else 0))
    ∧ (∃ t, exec .disableOutput s = .next t
      ∧ SettingDone s t { s.S with outen := false } .r4 5 5 1)

/-- R75: `SET_PHASE`. -/
def Obligations.SetPhaseWritesClampedPhase : Prop :=
  ∀ (s : State) (arg : Arg), s.Accepts →
    ∃ t v, exec (.setPhase arg) s = .next t
      ∧ ((v : Fin 4096).val : Int) = min (max arg.toInt 0) 4095
      ∧ SettingDone s t { s.S with phase := v } .r1 26 15 v.val

/-- R76: `SET_LOW_NOISE` and its pseudo-instruction: exactly one of R2 bits 29 and 30 is set. -/
def Obligations.SetLowNoiseSetsExactlyOneBit : Prop :=
  ∀ (s : State), s.Accepts →
    (∀ arg, ∃ t, exec (.setLowNoise arg) s = .next t
      ∧ SettingDone s t { s.S with lownoise := arg != 0 } .r2 30 29 (if arg = 0 then 0b10 else 0b01)
      ∧ t.reg.r2.getLsbD 29 = (arg != 0) ∧ t.reg.r2.getLsbD 30 = (arg == 0))
    ∧ (∃ t, exec .setLowSpur s = .next t
      ∧ SettingDone s t { s.S with lownoise := false } .r2 30 29 0b10
      ∧ t.reg.r2.getLsbD 29 = false ∧ t.reg.r2.getLsbD 30 = true)

/-- R73, R75, corner cases: levels above 3 behave identically to 3 and negative ones to 0; phases above
4095 to 4095 and negative ones to 0. -/
def Obligations.ClampedOperandsBehaveAlike : Prop :=
  ∀ (s : State) (arg : Arg),
    (3 < arg.toInt → exec (.setPower arg) s = exec (.setPower 3) s)
    ∧ (arg.toInt < 0 → exec (.setPower arg) s = exec (.setPower 0) s)
    ∧ (4095 < arg.toInt → exec (.setPhase arg) s = exec (.setPhase 4095) s)
    ∧ (arg.toInt < 0 → exec (.setPhase arg) s = exec (.setPhase 0) s)

/-- R74, corner cases: disabling then enabling clears R4 bit 5 and changes no other bit; repeating a call
leaves the registers and settings as the first call did. -/
def Obligations.OutputEnableIsIdempotentAndRestores : Prop :=
  ∀ (s : State) (arg : Arg), s.Accepts →
    (∃ t u, exec (.enableOutput 0) s = .next t ∧ exec (.enableOutput 1) t = .next u
      ∧ u.reg.r4.getLsbD 5 = false
      ∧ (s.reg.r4.getLsbD 5 = false → u.reg = s.reg))
    ∧ (∃ t u, exec (.enableOutput arg) s = .next t ∧ exec (.enableOutput arg) t = .next u
      ∧ u.reg = t.reg ∧ u.S = t.S)

/-! ### Status -/

/-- R77: `GET_FREQ` answers `S.fout` and changes nothing but the response. That `RESP_VAL` is the 64-bit two's
complement of `S.fout`, wrapping only in states that no run reaches, is log 17, deduced from R17. -/
def Obligations.GetFreqReadsProgrammedFrequency : Prop :=
  ∀ (s : State) (arg : Arg), s.Accepts →
    exec (.getFreq arg) s = .next { s with
      respOk := true
      respVal := BitVec.ofInt 64 s.S.fout
      responses := s.responses ++ [{ ok := true, val := BitVec.ofInt 64 s.S.fout }] }

/-- R78, R19, with the samples as the model supplies them (log 3): `IS_LOCKED` answers 1 when the sampled line is 1 and 0 otherwise, and changes nothing else of
the block. The sample is the environment's next one, or a free value (log 3). -/
def Obligations.IsLockedReportsTheSample : Prop :=
  ∀ (s : State) (arg : Arg), s.Accepts →
    (∀ l rest, s.ldIn = l :: rest →
      exec (.isLocked arg) s = .next { s with
        ldIn := rest
        respOk := true
        respVal := if l then 1 else 0
        responses := s.responses ++ [{ ok := true, val := if l then 1 else 0 }] })
    ∧ (s.ldIn = [] →
      exec (.isLocked arg) s = .next { s with
        ldDraws := s.ldDraws + 1
        respOk := true
        respVal := if Config.ldIn s.ldDraws then 1 else 0
        responses := s.responses
          ++ [{ ok := true, val := if Config.ldIn s.ldDraws then 1 else 0 }] })

/-! ### Serializer and receiver -/

/-- R80: the 98 events of `WriteWord`, one by one. -/
def Obligations.WordTransferEvents : Prop :=
  ∀ w : Word, (wordEvents w).length = 98
    ∧ (wordEvents w)[0]? = some { line := .le, level := false }
    ∧ (wordEvents w)[97]? = some { line := .le, level := true }
    ∧ ∀ k, k < 32 →
      (wordEvents w)[1 + 3 * k]? = some { line := .data, level := w.getLsbD (31 - k) }
      ∧ (wordEvents w)[2 + 3 * k]? = some { line := .clk, level := true }
      ∧ (wordEvents w)[3 + 3 * k]? = some { line := .clk, level := false }

/-- R21, R80, R105: the serializer stepped one pin event at a time, from `LE` low, is `WriteWord`: after 97
further events it is `Idle` with exactly the effect of the whole transfer. -/
def Obligations.SerializerRefinesWriteWord : Prop :=
  ∀ (w : Word) (s : State), serTicks 97 (serBegin w s) = { writeWord w s with ser := .idle }

/-- R105, R21: while the serializer is `Shifting` a step holds the issue stream and writes nothing but the
bus and the event list, a second writer has no step, and the transfer ends within 97 steps. -/
def Obligations.ShiftingHoldsNewCommands : Prop :=
  ∀ (s : State) (w : Word) (k : Fin 32) (b : BitStep), s.ser = .shifting w k b →
    (∀ i, exec i s = .refused .overlappingCommand)
    ∧ (∃ t, step s = .next t ∧ t.issue = s.issue ∧ t.reg = s.reg ∧ t.S = s.S ∧ t.inited = s.inited
      ∧ t.fault = s.fault ∧ t.respOk = s.respOk ∧ t.respVal = s.respVal
      ∧ t.responses = s.responses ∧ t.ldIn = s.ldIn ∧ t.ldDraws = s.ldDraws)
    ∧ (∃ n t, n ≤ 97 ∧ Host.Core.run Sys2Proof.core n s = .next t ∧ t.ser = .idle
      ∧ t.issue = s.issue)

/-- R80, R87 (and log 7): a register word with a register's address, sent on its own from a low clock, is
one transfer, and the receiver holds it in `DEV_SR` and in the latch of its address alone. -/
def Obligations.RegisterWordReachesItsLatch : Prop :=
  ∀ (i : Instr) (w : Word) (r : RegIx) (s : State), encode i = .busWord w → addrOf w = r.addr →
    s.ser = .idle → s.fault = .none → s.bus.pins.clk = some false →
    exec i s = .next { s with
      events := s.events ++ wordEvents w
      bus := { pins := { le := some true, clk := some false, data := some (w.getLsbD 0),
                         ce := s.bus.pins.ce }
               dev := { sr := w, reg := s.bus.dev.reg.set r w, opens := s.bus.dev.opens } } }

/-- R56, R87, 93 U1 (and log 4, 7): a word with address 6 or 7 is transferred and held in `DEV_SR`; the
latches are open, and the block's own state is as before. -/
def Obligations.AddressSixOrSevenLeavesLatchesOpen : Prop :=
  ∀ (f : Reg67Word) (s : State), s.ser = .idle → s.fault = .none → s.bus.pins.clk = some false →
    ∃ regs, exec (.regAddr67 f) s = .next { s with
      events := s.events ++ wordEvents (f.rest ++ 0b11#2 ++ f.addrLow)
      bus := { pins := { le := some true, clk := some false,
                         data := some (f.addrLow.getLsbD 0), ce := s.bus.pins.ce }
               dev := { sr := f.rest ++ 0b11#2 ++ f.addrLow, reg := regs,
                        opens := s.bus.dev.opens + 1 } } }

/-- The frame of register words (log 7): whatever the lines are, a register word sent on its own appends
its 98 events and leaves all of the block's own state as before. -/
def Obligations.RegisterWordFrame : Prop :=
  ∀ (i : Instr) (w : Word) (s : State), encode i = .busWord w → s.ser = .idle → s.fault = .none →
    ∃ b, exec i s = .next { s with events := s.events ++ wordEvents w, bus := b }
      ∧ b.pins = { le := some true, clk := some false, data := some (w.getLsbD 0),
                   ce := s.bus.pins.ce }

/-- R79, R33, for the lists the model keeps (log 9): a step only appends to the event list and the response list, at most one response. -/
def Obligations.ObservationsOnlyGrow : Prop :=
  ∀ s t : State, step s = .next t →
    ∃ evs rs, t.events = s.events ++ evs ∧ t.responses = s.responses ++ rs ∧ rs.length ≤ 1

/-- R88: `CE` is driven by `INIT` alone, once and to 1; no other instruction drives it, nor does the serializer
stepped one pin event at a time. -/
def Obligations.OnlyInitDrivesChipEnable : Prop :=
  (∀ s : State, (serTick s).bus.pins.ce = s.bus.pins.ce
    ∧ ∃ evs, (serTick s).events = s.events ++ evs ∧ ∀ e ∈ evs, e.line ≠ .ce)
  ∧ ∀ (i : Instr) (s t : State), exec i s = .next t →
    ∃ evs, t.events = s.events ++ evs
      ∧ ((∀ arg, i ≠ .init arg) → (∀ e ∈ evs, e.line ≠ .ce) ∧ t.bus.pins.ce = s.bus.pins.ce)
      ∧ (∀ arg, i = .init arg → t.fault = .none →
        evs.filter (fun e => e.line == .ce) = [{ line := .ce, level := true }])

/-- R111's table: the number of pin events of each command. R111 excepts an `INT_RANGE` inside `INIT` from the 0 events
of a faulted command; that this fault cannot happen at the default configuration is derived in R68 and R58, from
R72. -/
def Obligations.EventCountsPerCommand : Prop :=
  ∀ (s t : State) (i : Instr), i.IsCommand = true → exec i s = .next t →
    (s.fault ≠ .none ∨ t.fault ≠ .none → t.events.length = s.events.length)
    ∧ (t.fault = .none →
      (∀ arg, i = .init arg → t.events.length = s.events.length + 1180)
      ∧ (∀ arg, i = .setFreq arg →
        t.events.length = s.events.length + if InRange arg.toInt then 588 else 0)
      ∧ ((∃ arg, i = .setPower arg ∨ i = .enableOutput arg ∨ i = .setPhase arg ∨ i = .setLowNoise arg)
          ∨ i = .disableOutput ∨ i = .setLowSpur → t.events.length = s.events.length + 98)
      ∧ (∀ arg, i = .getFreq arg ∨ i = .isLocked arg → t.events.length = s.events.length))

/-- R111's last sentence, which the spec derives from R80 and R85: a word sent with times that meet the bounds of R85 takes at least 32 clock-high and 32
clock-low times, whatever the open bounds are. -/
def Obligations.WordTakesItsClockTimes : Prop :=
  ∀ (w : Word) (first last : TimedEvent) (mid : List TimedEvent),
    (first :: (mid ++ [last])).map TimedEvent.event = wordEvents w →
    RespectsTiming (first :: (mid ++ [last])) →
    first.time + (32 * Config.tClkHigh + 32 * Config.tClkLow) ≤ last.time

/-! ### Invariants -/

/-- The power-on state is a command boundary (R25; the empty lists are log 9). -/
def Obligations.ResetSatisfiesInvariant : Prop := Inv State.reset

/-- R13, R18, R21, R22, R87 (which the spec derives): from every state that meets the invariant of command boundaries, a step that
runs a command (or has nothing to run) keeps it: registers consistent with settings, bus idle, `CE`
asserted, receiver in agreement, serializer `Idle`. -/
def Obligations.EveryCommandStepKeepsInvariant : Prop :=
  ∀ s t : State, Inv s → s.NextIsCommand → step s = .next t → Inv t

/-- R13 (which the spec derives): the address bits survive every step, register words and pin-level steps included. -/
def Obligations.AddressBitsSurviveEveryStep : Prop :=
  ∀ s t : State, (s.inited = true → AddressesOk s.reg) → step s = .next t →
    t.inited = true → AddressesOk t.reg

/-- R22 and R56 (derived in the spec): at a command boundary after `INIT` every register word is one the block may produce. -/
def Obligations.RegistersHoldProducibleWords : Prop :=
  ∀ s : State, Inv s → s.inited = true → ∀ i : RegIx, BlockProduces (decodeBusWord (s.reg.get i))

/-- R26, R28, R56: everything a command puts on the bus is, after the pin set-up of `INIT`, a sequence of
whole register words that the block may produce. -/
def Obligations.CommandsSendProducibleWordsOnly : Prop :=
  ∀ (s t : State) (i : Instr), Inv s → i.IsCommand = true → exec i s = .next t →
    ∃ pre ws, t.events = s.events ++ pre ++ sentWords ws
      ∧ (pre = [] ∨ pre = pinsIdleEvents hw)
      ∧ ∀ w ∈ ws, BlockProduces (decodeBusWord w)

/-! ### The record of the frequency computation -/

/-- R70, for every configuration: a computation that does not fault answers the record that R62 to R69 give, and one
that faults does so through R68. -/
def Obligations.FreqCalcIsTheRecordOfItsRules : Prop :=
  ∀ (P : Params) (hz ref : Int),
    (∀ c, freqCalc P hz ref = .ok c →
      c.d = dividerExp hz ∧ c.vco = vcoOf hz ∧ c.pfd = ref ∧ (c.int, c.frac) = intFrac P c.vco ref
      ∧ (∀ t, P.prescaler = .threshold t → (c.p = true ↔ t < c.vco))
      ∧ (P.prescaler = .always89 → c.p = true) ∧ (P.prescaler = .always45 → c.p = false)
      ∧ c.bsc = bscDiv P ref
      ∧ (if c.p then P.intMin89 else P.intMin45) ≤ c.int ∧ c.int ≤ P.intMax)
    ∧ (∀ code, freqCalc P hz ref = .error code → code = .intRange)
end

