-- ==== Sys2Proof/Laws/State.lean ====
section
/-! SUPPORT. The state's updates: one lemma per field per update, and the register file's accessors. -/

namespace Sys2Proof

@[simp] theorem RegFile.get_set_same (r : RegFile) (i : RegIx) (w : Word) : (r.set i w).get i = w := by
  cases i <;> rfl

theorem RegFile.get_set_of_ne (r : RegFile) {i j : RegIx} (w : Word) (h : j ≠ i) :
    (r.set i w).get j = r.get j := by
  cases i <;> cases j <;> first | rfl | exact absurd rfl h

@[simp] theorem RegFile.get_ofFn (f : RegIx → Word) (i : RegIx) : (RegFile.ofFn f).get i = f i := by
  cases i <;> rfl

theorem RegFile.ext_get {r r' : RegFile} (h : ∀ i, r.get i = r'.get i) : r = r' := by
  cases r; cases r'
  simpa [RegFile.get] using ⟨h .r0, h .r1, h .r2, h .r3, h .r4, h .r5⟩

@[simp] theorem RegIx.ofAddr_addr (i : RegIx) : RegIx.ofAddr i.addr = some i := by
  cases i <;> rfl

theorem RegIx.addr_of_ofAddr {a : BitVec 3} {i : RegIx} (h : RegIx.ofAddr a = some i) : a = i.addr := by
  revert a i; decide +revert

namespace Machine

/-! ### `emitAll` -/

section
variable (evs : List PinEvent) (s : State)
@[simp] theorem emitAll_reg : (emitAll evs s).reg = s.reg := rfl
@[simp] theorem emitAll_S : (emitAll evs s).S = s.S := rfl
@[simp] theorem emitAll_inited : (emitAll evs s).inited = s.inited := rfl
@[simp] theorem emitAll_fault : (emitAll evs s).fault = s.fault := rfl
@[simp] theorem emitAll_respOk : (emitAll evs s).respOk = s.respOk := rfl
@[simp] theorem emitAll_respVal : (emitAll evs s).respVal = s.respVal := rfl
@[simp] theorem emitAll_bus : (emitAll evs s).bus = s.bus.driveAll evs := rfl
@[simp] theorem emitAll_ser : (emitAll evs s).ser = s.ser := rfl
@[simp] theorem emitAll_events : (emitAll evs s).events = s.events ++ evs := rfl
@[simp] theorem emitAll_responses : (emitAll evs s).responses = s.responses := rfl
@[simp] theorem emitAll_issue : (emitAll evs s).issue = s.issue := rfl
@[simp] theorem emitAll_ldIn : (emitAll evs s).ldIn = s.ldIn := rfl
@[simp] theorem emitAll_ldDraws : (emitAll evs s).ldDraws = s.ldDraws := rfl
end

/-! ### `respond` -/

section
variable (ok : Bool) (val : BitVec 64) (s : State)
@[simp] theorem respond_reg : (respond ok val s).reg = s.reg := rfl
@[simp] theorem respond_S : (respond ok val s).S = s.S := rfl
@[simp] theorem respond_inited : (respond ok val s).inited = s.inited := rfl
@[simp] theorem respond_fault : (respond ok val s).fault = s.fault := rfl
@[simp] theorem respond_respOk : (respond ok val s).respOk = ok := rfl
@[simp] theorem respond_respVal : (respond ok val s).respVal = val := rfl
@[simp] theorem respond_bus : (respond ok val s).bus = s.bus := rfl
@[simp] theorem respond_ser : (respond ok val s).ser = s.ser := rfl
@[simp] theorem respond_events : (respond ok val s).events = s.events := rfl
@[simp] theorem respond_responses :
    (respond ok val s).responses = s.responses ++ [{ ok := ok, val := val }] := rfl
@[simp] theorem respond_issue : (respond ok val s).issue = s.issue := rfl
@[simp] theorem respond_ldIn : (respond ok val s).ldIn = s.ldIn := rfl
@[simp] theorem respond_ldDraws : (respond ok val s).ldDraws = s.ldDraws := rfl
end

/-! ### `raise` -/

section
variable (code : FaultCode) (s : State)
@[simp] theorem raise_reg : (raise code s).reg = s.reg := rfl
@[simp] theorem raise_S : (raise code s).S = s.S := rfl
@[simp] theorem raise_inited : (raise code s).inited = s.inited := rfl
@[simp] theorem raise_respOk : (raise code s).respOk = s.respOk := rfl
@[simp] theorem raise_respVal : (raise code s).respVal = s.respVal := rfl
@[simp] theorem raise_bus : (raise code s).bus = s.bus := rfl
@[simp] theorem raise_ser : (raise code s).ser = s.ser := rfl
@[simp] theorem raise_events : (raise code s).events = s.events := rfl
@[simp] theorem raise_responses : (raise code s).responses = s.responses := rfl
@[simp] theorem raise_issue : (raise code s).issue = s.issue := rfl
@[simp] theorem raise_ldIn : (raise code s).ldIn = s.ldIn := rfl
@[simp] theorem raise_ldDraws : (raise code s).ldDraws = s.ldDraws := rfl

end

/-- The first fault is kept (R16). -/
theorem raise_fault (code : FaultCode) (s : State) : (raise code s).fault = if s.fault = .none then code else s.fault := rfl

theorem raise_of_noFault {code : FaultCode} {s : State} (h : s.fault = .none) : raise code s = { s with fault := code } := by
  simp [raise, h]

theorem raise_fault_of_fault {code : FaultCode} {s : State} (h : s.fault ≠ .none) : (raise code s).fault = s.fault := by
  simp [raise, h]

/-! ### The lock-detect sample -/

section
variable (s : State)
@[simp] theorem sampleLd_reg : (sampleLd s).2.reg = s.reg := by unfold sampleLd; split <;> rfl
@[simp] theorem sampleLd_S : (sampleLd s).2.S = s.S := by unfold sampleLd; split <;> rfl
@[simp] theorem sampleLd_inited : (sampleLd s).2.inited = s.inited := by unfold sampleLd; split <;> rfl
@[simp] theorem sampleLd_fault : (sampleLd s).2.fault = s.fault := by unfold sampleLd; split <;> rfl
@[simp] theorem sampleLd_bus : (sampleLd s).2.bus = s.bus := by unfold sampleLd; split <;> rfl
@[simp] theorem sampleLd_ser : (sampleLd s).2.ser = s.ser := by unfold sampleLd; split <;> rfl
@[simp] theorem sampleLd_events : (sampleLd s).2.events = s.events := by unfold sampleLd; split <;> rfl
@[simp] theorem sampleLd_responses : (sampleLd s).2.responses = s.responses := by
  unfold sampleLd; split <;> rfl
@[simp] theorem sampleLd_issue : (sampleLd s).2.issue = s.issue := by unfold sampleLd; split <;> rfl
end

/-! ### The parameters of this hardware -/

@[simp] theorem hw_refMinHz : hw.refMinHz = 67139 := rfl
@[simp] theorem hw_refMaxHz : hw.refMaxHz = 29333333 := rfl
@[simp] theorem hw_prescaler : hw.prescaler = .threshold 3600000000 := rfl
@[simp] theorem hw_intMin45 : hw.intMin45 = 23 := rfl
@[simp] theorem hw_intMin89 : hw.intMin89 = 75 := rfl
@[simp] theorem hw_intMax : hw.intMax = 65535 := rfl
@[simp] theorem hw_bscTargetHz : hw.bscTargetHz = 125000 := rfl
@[simp] theorem hw_bscMin : hw.bscMin = 1 := rfl
@[simp] theorem hw_bscMax : hw.bscMax = 255 := rfl
@[simp] theorem hw_fracMode : hw.fracMode = .nearest := rfl
@[simp] theorem hw_fracTie : hw.fracTie = .up := rfl
@[simp] theorem hw_fracCarry : hw.fracCarry = false := rfl
@[simp] theorem hw_powerField : hw.powerField = .reg3 := rfl
@[simp] theorem hw_noiseBits : hw.noiseBits = .oneHot := rfl
@[simp] theorem hw_base : hw.base = baseWords := rfl
@[simp] theorem hw_baseline : hw.baseline = baselineWords := rfl
@[simp] theorem hw_ceOn : hw.ceOn = true := rfl

end Machine
end Sys2Proof
end

