-- ==== Sys2Proof/Laws/Bus.lean ====
section
/-! SUPPORT. What the pin events of a transfer do: their number, the levels they leave, and what the receiver
holds after them. -/

namespace Sys2Proof.Machine

/-! ### Event lists -/

@[simp] theorem Bus.driveAll_nil (b : Bus) : b.driveAll [] = b := rfl

@[simp] theorem Bus.driveAll_cons (b : Bus) (e : PinEvent) (evs : List PinEvent) :
    b.driveAll (e :: evs) = (b.drive e).driveAll evs := rfl

theorem Bus.driveAll_append (b : Bus) (xs ys : List PinEvent) :
    b.driveAll (xs ++ ys) = (b.driveAll xs).driveAll ys := by
  simp [Bus.driveAll, List.foldl_append]

/-- Emitting two lists in order is emitting their concatenation. -/
theorem emitAll_emitAll (xs ys : List PinEvent) (s : State) :
    emitAll ys (emitAll xs s) = emitAll (xs ++ ys) s := by
  simp [emitAll, Bus.driveAll_append, List.append_assoc]

@[simp] theorem emitAll_nil (s : State) : emitAll [] s = s := by
  simp [emitAll]

theorem length_bitEvents (w : Word) (n : Nat) : (bitEvents w n).length = 3 * n := by
  induction n with
  | zero => rfl
  | succ n ih => simp [bitEvents, ih]; omega

/-- "sends one 32-bit word as exactly 98 pin events" (R80). -/
@[simp] theorem length_wordEvents (w : Word) : (wordEvents w).length = 98 := by
  simp [wordEvents, length_bitEvents]

theorem bitEvents_line {w : Word} {n : Nat} {e : PinEvent} (h : e ∈ bitEvents w n) :
    e.line = .data ∨ e.line = .clk := by
  induction n with
  | zero => simp [bitEvents] at h
  | succ n ih =>
    simp only [bitEvents, List.mem_cons] at h
    obtain rfl | rfl | rfl | h := h
    · exact .inl rfl
    · exact .inr rfl
    · exact .inr rfl
    · exact ih h

/-- A transfer never drives `CE` (R88). -/
theorem wordEvents_line_ne_ce {w : Word} {e : PinEvent} (h : e ∈ wordEvents w) : e.line ≠ .ce := by
  simp only [wordEvents, List.mem_cons, List.mem_append, List.not_mem_nil, or_false] at h
  obtain rfl | h | rfl := h
  · simp
  · rcases bitEvents_line h with h | h <;> simp [h]
  · simp

/-! ### Levels left by a transfer -/

/-- The levels after one bit, whatever they were before. -/
theorem Bus.drive_bit_pins (b : Bus) (x : Bool) :
    (((b.drive ⟨.data, x⟩).drive ⟨.clk, true⟩).drive ⟨.clk, false⟩).pins
      = { b.pins with data := some x, clk := some false } := rfl

theorem driveAll_bitEvents_pins (w : Word) (n : Nat) (b : Bus) :
    (b.driveAll (bitEvents w (n + 1))).pins
      = { b.pins with data := some (w.getLsbD 0), clk := some false } := by
  induction n generalizing b with
  | zero => rfl
  | succ n ih =>
    rw [bitEvents]
    simp only [Bus.driveAll_cons]
    rw [ih, Bus.drive_bit_pins]

/-- After a transfer `LE` = 1, `CLK` = 0 and `DATA` is bit 0 of the word, whatever the levels were
before; `CE` is untouched (R80, R82, R88). -/
theorem driveAll_wordEvents_pins (w : Word) (b : Bus) :
    (b.driveAll (wordEvents w)).pins
      = { le := some true, clk := some false, data := some (w.getLsbD 0), ce := b.pins.ce } := by
  rw [wordEvents, Bus.driveAll_cons, Bus.driveAll_append]
  generalize hb : (b.drive ⟨.le, false⟩).driveAll (bitEvents w 32) = m
  have hm : m.pins
      = { le := some false, clk := some false, data := some (w.getLsbD 0), ce := b.pins.ce } := by
    rw [← hb, driveAll_bitEvents_pins w 31]; rfl
  simp [Bus.drive, Pins.drive, hm]

/-! ### The receiver -/

/-- One bit from a low clock: the receiver shifts it in. -/
theorem Bus.drive_bit (b : Bus) (x : Bool) (h : b.pins.clk = some false) :
    ((b.drive ⟨.data, x⟩).drive ⟨.clk, true⟩).drive ⟨.clk, false⟩
      = { pins := { b.pins with data := some x, clk := some false }
          dev := { b.dev with sr := shiftIn b.dev.sr x } } := by
  simp [Bus.drive, Pins.drive, Receiver.observe, Receiver.shift, h]

theorem getLsbD_shiftIn (sr : Word) (x : Bool) {i : Nat} (h : i < 32) :
    (shiftIn sr x).getLsbD i = if i = 0 then x else sr.getLsbD (i - 1) := by
  rcases i with _ | i
  · cases x <;> simp [shiftIn, bit]
  · cases x <;> simp [shiftIn, bit, h, BitVec.getLsbD_eq_getElem (show i < 32 by omega)]

/-- After `n` bits of `w` the low `n` bits of the shift register are those of `w` and the older bits
have moved up by `n`. -/
theorem driveAll_bitEvents_dev (w : Word) (n : Nat) (b : Bus) (h : b.pins.clk = some false) :
    (b.driveAll (bitEvents w n)).dev.reg = b.dev.reg
    ∧ (b.driveAll (bitEvents w n)).dev.opens = b.dev.opens
    ∧ ∀ i < 32, (b.driveAll (bitEvents w n)).dev.sr.getLsbD i
        = if i < n then w.getLsbD i else b.dev.sr.getLsbD (i - n) := by
  induction n generalizing b with
  | zero => simp [bitEvents]
  | succ n ih =>
    simp only [bitEvents, Bus.driveAll_cons]
    rw [Bus.drive_bit b _ h]
    obtain ⟨h1, h2, h3⟩ := ih { pins := { b.pins with data := some (w.getLsbD n), clk := some false }
                                dev := { b.dev with sr := shiftIn b.dev.sr (w.getLsbD n) } } rfl
    refine ⟨h1, h2, fun i hi => ?_⟩
    rw [h3 i hi]
    by_cases hin : i < n
    · rw [if_pos hin, if_pos (by omega)]
    · rw [if_neg hin]
      simp only
      rw [getLsbD_shiftIn _ _ (by omega)]
      by_cases hi0 : i = n
      · subst hi0; simp
      · rw [if_neg (by omega), if_neg (by omega)]
        congr 1

/-- What a transfer of `w` leaves of the bus, from a low clock: the levels of the idle bus with `DATA` at
bit 0 of the word, and the receiver with `DEV_SR = w`, committed (R80, R82, R87). -/
theorem driveAll_wordEvents (w : Word) (b : Bus) (h : b.pins.clk = some false) :
    b.driveAll (wordEvents w)
      = { pins := { le := some true, clk := some false, data := some (w.getLsbD 0), ce := b.pins.ce }
          dev := ({ b.dev with sr := w } : Receiver).latch } := by
  have hp := driveAll_wordEvents_pins w b
  suffices hd : (b.driveAll (wordEvents w)).dev = ({ b.dev with sr := w } : Receiver).latch by
    generalize b.driveAll (wordEvents w) = m at hp hd
    cases m; simp_all
  rw [wordEvents, Bus.driveAll_cons, Bus.driveAll_append]
  have hc : (b.drive ⟨.le, false⟩).pins.clk = some false := by simp [Bus.drive, Pins.drive, h]
  obtain ⟨h1, h2, h3⟩ := driveAll_bitEvents_dev w 32 (b.drive ⟨.le, false⟩) hc
  have hpins := driveAll_bitEvents_pins w 31 (b.drive ⟨.le, false⟩)
  generalize (b.drive ⟨.le, false⟩).driveAll (bitEvents w 32) = m at h1 h2 h3 hpins
  have hsr : m.dev.sr = w := by
    apply BitVec.eq_of_getLsbD_eq
    intro i hi
    rw [h3 i hi, if_pos hi]
  have hdev : m.dev = { b.dev with sr := w } := by
    have e1 : m.dev.reg = b.dev.reg := h1
    have e2 : m.dev.opens = b.dev.opens := h2
    generalize m.dev = d at e1 e2 hsr
    cases d; simp_all
  have hle : m.pins.le = some false := by rw [hpins]; rfl
  simp [Bus.drive, Receiver.observe, hle, hdev]

/-- A committed word with a register's address lands in that register's latch alone (R87). -/
theorem Receiver.latch_of_addr (d : Receiver) {i : RegIx} (h : addrOf d.sr = i.addr) :
    d.latch = { d with reg := d.reg.set i d.sr } := by
  simp [Receiver.latch, h]

/-- A committed word with address 6 or 7 leaves the latches open (R87, 93 U1). -/
theorem Receiver.latch_of_noAddr (d : Receiver) (h : RegIx.ofAddr (addrOf d.sr) = none) :
    d.latch = { d with reg := .ofFn (Config.badAddressLatch d.opens), opens := d.opens + 1 } := by
  simp [Receiver.latch, h]

/-! ### `Transmit` -/

/-- A list of transfers is one list of events; "reading all the words at the start gives the same
result" (R83). -/
theorem transmit_eq (is : List RegIx) (s : State) :
    transmit is s = emitAll (sentWords (is.map s.reg.get)) s := by
  induction is generalizing s with
  | nil => simp [transmit, sentWords]
  | cons i is ih =>
    rw [transmit, ih, writeWord, emitAll_emitAll]
    simp [sentWords]

/-- A full update sends the six words in descending order (R34, R83). -/
theorem transmit_fullUpdate (s : State) :
    transmit fullUpdate s = emitAll (sentWords (fullUpdateWords s.reg)) s := transmit_eq _ s

theorem transmit_one (i : RegIx) (s : State) :
    transmit [i] s = emitAll (wordEvents (s.reg.get i)) s := rfl

@[simp] theorem length_sentWords (ws : List Word) : (sentWords ws).length = 98 * ws.length := by
  induction ws with
  | nil => rfl
  | cons w ws ih =>
    rw [sentWords, List.flatMap_cons] at *
    simp [List.length_append, ih]; omega

theorem sentWords_line_ne_ce {ws : List Word} {e : PinEvent} (h : e ∈ sentWords ws) : e.line ≠ .ce := by
  obtain ⟨w, -, hw⟩ := List.mem_flatMap.1 h
  exact wordEvents_line_ne_ce hw

/-- The levels after a full update: those of the last word, register 0 (R82). -/
theorem driveAll_fullUpdate_pins (r : RegFile) (b : Bus) :
    (b.driveAll (sentWords (fullUpdateWords r))).pins
      = { le := some true, clk := some false, data := some (r.r0.getLsbD 0), ce := b.pins.ce } := by
  simp [sentWords, fullUpdateWords, Bus.driveAll_append, driveAll_wordEvents_pins]

/-- After a full update from a low clock of words that carry their own addresses, every latch of the
receiver holds its word (R87). -/
theorem driveAll_fullUpdate_dev (r : RegFile) (b : Bus) (h : b.pins.clk = some false)
    (ha : AddressesOk r) :
    (b.driveAll (sentWords (fullUpdateWords r))).dev = { b.dev with sr := r.r0, reg := r } := by
  simp only [sentWords, fullUpdateWords, List.flatMap_cons, List.flatMap_nil, List.append_nil,
    Bus.driveAll_append]
  rw [driveAll_wordEvents _ b h, driveAll_wordEvents _ _ rfl, driveAll_wordEvents _ _ rfl,
    driveAll_wordEvents _ _ rfl, driveAll_wordEvents _ _ rfl, driveAll_wordEvents _ _ rfl]
  have h0 := ha .r0; have h1 := ha .r1; have h2 := ha .r2
  have h3 := ha .r3; have h4 := ha .r4; have h5 := ha .r5
  simp only [RegFile.get] at h0 h1 h2 h3 h4 h5
  simp [Receiver.latch, h0, h1, h2, h3, h4, h5, RegFile.set]

end Sys2Proof.Machine
end

