-- ==== Sys2Proof/Laws/Compose.lean ====
section
/-! SUPPORT. The bits of fields, the addresses composed words carry, and the agreement of each setter's insert with
the composition (spec 10_state.md R13, R22; 30_encoding.md R45, R55). -/

namespace Sys2Proof.Machine

/-! ### Bits of a field -/

theorem getLsbD_field (v lo k : Nat) :
    (field v lo).getLsbD k = (decide (k < 32) && (decide (lo ≤ k) && v.testBit (k - lo))) := by
  simp only [field, BitVec.getLsbD_shiftLeft, BitVec.getLsbD_ofNat]
  by_cases h : k < 32
  · by_cases h' : lo ≤ k
    · have h1 : ¬ k < lo := by omega
      have h2 : k - lo < 32 := by omega
      simp only [h, h', h1, h2, decide_true, decide_false, Bool.not_false, Bool.true_and]
    · have h1 : k < lo := by omega
      simp only [h', h1, decide_true, decide_false, Bool.not_true, Bool.false_and, Bool.and_false]
  · simp only [h, decide_false, Bool.false_and]

theorem testBit_eq_false {v n k : Nat} (hv : v < 2 ^ n) (hk : n ≤ k) : v.testBit k = false :=
  Nat.testBit_lt_two_pow (Nat.lt_of_lt_of_le hv (Nat.pow_le_pow_right (by omega) hk))

/-- The mask of `[hi:lo]` has exactly the bits of the field (R45). -/
theorem getLsbD_fieldMask {hi lo : Nat} (h : lo ≤ hi) (k : Nat) :
    (fieldMask hi lo).getLsbD k = decide (k < 32 ∧ lo ≤ k ∧ k ≤ hi) := by
  rw [fieldMask, getLsbD_field, Nat.testBit_two_pow_sub_one]
  by_cases h1 : k < 32 <;> by_cases h2 : lo ≤ k <;> simp [h1, h2]
  omega

/-! ### Addresses -/

theorem addrOf_or (a b : Word) : addrOf (a ||| b) = addrOf a ||| addrOf b := by
  apply BitVec.eq_of_getLsbD_eq
  intro i hi
  simp [addrOf, slice, hi]

/-- A field above bit 2 does not touch the address (R13, R45). -/
theorem addrOf_field (v : Nat) {lo : Nat} (h : 3 ≤ lo) : addrOf (field v lo) = 0 := by
  apply BitVec.eq_of_getLsbD_eq
  intro i hi
  have : ¬ lo ≤ i := by omega
  simp [addrOf, slice, getLsbD_field, hi, this]

/-- "the low 3 bits must never be altered by field updates" (R45). -/
theorem addrOf_insertField {w w' : Word} {hi lo v : Nat} (h : insertField w hi lo v = some w') :
    addrOf w' = addrOf w := by
  unfold insertField at h
  split at h
  · rename_i hc
    cases h
    rw [addrOf_or, addrOf_field v hc.1]
    apply BitVec.eq_of_getLsbD_eq
    intro i hi
    have : ¬ lo ≤ i := by omega
    simp [addrOf, slice, getLsbD_fieldMask hc.2.1, hi, this]
    omega
  · cases h

theorem insertField_eq_some {w : Word} {hi lo v : Nat} (h3 : 3 ≤ lo) (hlo : lo ≤ hi) (hhi : hi ≤ 31)
    (hv : v < 2 ^ (hi - lo + 1)) :
    insertField w hi lo v = some ((w &&& ~~~ fieldMask hi lo) ||| field v lo) := by
  simp [insertField, h3, hlo, hhi, hv]

/-- Every word written whole carries its own index (R13, R55). -/
theorem addrOf_compose (i : RegIx) (S : Settings) (c : Calc) : addrOf (compose hw i S c) = i.addr := by
  cases i <;>
    simp [compose, staticWord, powerWord, addrOf_or, addrOf_field, RegFile.get, baseWords] <;> rfl

theorem addressesOk_composeAll (S : Settings) (c : Calc) : AddressesOk (composeAll hw S c) := by
  intro i
  rw [composeAll, RegFile.get_ofFn]
  exact addrOf_compose i S c

theorem addressesOk_baseline : AddressesOk baselineWords := by
  intro i; cases i <;> rfl

theorem addressesOk_set {r : RegFile} (h : AddressesOk r) {i : RegIx} {w : Word}
    (hw : addrOf w = addrOf (r.get i)) : AddressesOk (r.set i w) := by
  intro j
  by_cases hj : j = i
  · subst hj; rw [RegFile.get_set_same, hw]; exact h j
  · rw [RegFile.get_set_of_ne r w hj]; exact h j

/-! ### Setters agree with the composition (R22) -/

/-- A word equals the insert of `v` into `w` when it has `v` in the field and the bits of `w` elsewhere. -/
theorem insertField_eq_of_bits {w w' : Word} {hi lo v : Nat} (h3 : 3 ≤ lo) (hlo : lo ≤ hi)
    (hhi : hi ≤ 31) (hv : v < 2 ^ (hi - lo + 1))
    (hin : ∀ k, lo ≤ k → k ≤ hi → w'.getLsbD k = v.testBit (k - lo))
    (hout : ∀ k, k < 32 → (k < lo ∨ hi < k) → w'.getLsbD k = w.getLsbD k) :
    insertField w hi lo v = some w' := by
  rw [insertField_eq_some h3 hlo hhi hv]
  congr 1
  apply BitVec.eq_of_getLsbD_eq
  intro k hk
  simp only [BitVec.getLsbD_or, BitVec.getLsbD_and, BitVec.getLsbD_not, getLsbD_fieldMask hlo,
    getLsbD_field, hk, decide_true, Bool.true_and, true_and]
  by_cases h1 : lo ≤ k
  · by_cases h2 : k ≤ hi
    · rw [hin k h1 h2]; simp [h1, h2]
    · rw [hout k hk (by omega), testBit_eq_false hv (by omega)]; simp [h2]
  · rw [hout k hk (by omega)]; simp [h1]

/-- A bit of a field that ends below it, or begins above it, is 0. -/
theorem getLsbD_field_of_lt {v lo k : Nat} (h : k < lo) : (field v lo).getLsbD k = false := by
  simp [getLsbD_field, Nat.not_le.2 h]

theorem getLsbD_field_of_ge {v lo n k : Nat} (hv : v < 2 ^ n) (h : lo + n ≤ k) :
    (field v lo).getLsbD k = false := by
  rw [getLsbD_field, testBit_eq_false hv (by omega)]; simp

theorem getLsbD_field_mid {v lo k : Nat} (h : lo ≤ k) (hk : k < 32) :
    (field v lo).getLsbD k = v.testBit (k - lo) := by
  simp only [getLsbD_field, h, hk, decide_true, Bool.true_and]

theorem bit_lt_two (b : Bool) : bit b < 2 ^ 1 := by cases b <;> decide

theorem noiseValue_lt (P : Params) (b : Bool) : noiseValue P b < 2 ^ 2 := by
  unfold noiseValue; split <;> decide

/-- The power field (R53, R73). -/
theorem insertField_compose_power (S : Settings) (c : Calc) (v : Fin 4) :
    insertField (compose hw .r3 S c) 4 3 v.val = some (compose hw .r3 { S with pwr := v } c) := by
  have hb : ∀ k, 3 ≤ k → k ≤ 4 → baseWords.r3.getLsbD k = false := by
    intro k h1 h2; interval_cases k <;> rfl
  apply insertField_eq_of_bits (by omega) (by omega) (by omega) v.isLt
  · intro k h1 h2
    simp [compose, staticWord, powerWord, RegFile.get, hb k h1 h2, getLsbD_field_mid h1 (by omega),
      BitVec.getLsbD_or]
  · intro k hk h
    have : ∀ x : Fin 4, (field x.val 3).getLsbD k = false := by
      intro x
      rcases h with h | h
      · exact getLsbD_field_of_lt h
      · exact getLsbD_field_of_ge (n := 2) x.isLt (by omega)
    simp [compose, staticWord, powerWord, BitVec.getLsbD_or, this]

/-- The output-enable bit (R54, R74). -/
theorem insertField_compose_outen (S : Settings) (c : Calc) (en : Bool) :
    insertField (compose hw .r4 S c) 5 5 (bit (!en))
      = some (compose hw .r4 { S with outen := en } c) := by
  apply insertField_eq_of_bits (by omega) (by omega) (by omega) (bit_lt_two _)
  · intro k h1 h2
    obtain rfl : k = 5 := by omega
    simp only [compose, staticWord, powerWord, hw_powerField, RegFile.get, hw_base, BitVec.getLsbD_or,
      getLsbD_field_of_lt (show 5 < 20 by omega), getLsbD_field_of_lt (show 5 < 12 by omega),
      getLsbD_field_mid (show 5 ≤ 5 by omega) (show 5 < 32 by omega)]
    simp [baseWords]
  · intro k hk h
    have : ∀ x : Bool, (field (bit x) 5).getLsbD k = false := by
      intro x
      rcases h with h | h
      · exact getLsbD_field_of_lt h
      · exact getLsbD_field_of_ge (n := 1) (bit_lt_two x) (by omega)
    simp [compose, BitVec.getLsbD_or, this]

/-- The phase field (R47, R75). -/
theorem insertField_compose_phase (S : Settings) (c : Calc) (v : Fin 4096) :
    insertField (compose hw .r1 S c) 26 15 v.val
      = some (compose hw .r1 { S with phase := v } c) := by
  have hb : ∀ k, 15 ≤ k → k ≤ 26 → baseWords.r1.getLsbD k = false := by
    intro k h1 h2; interval_cases k <;> rfl
  apply insertField_eq_of_bits (by omega) (by omega) (by omega) v.isLt
  · intro k h1 h2
    simp [compose, staticWord, powerWord, RegFile.get, hb k h1 h2, BitVec.getLsbD_or,
      getLsbD_field_mid h1 (show k < 32 by omega), getLsbD_field_of_lt (show k < 27 by omega)]
  · intro k hk h
    have : ∀ x : Fin 4096, (field x.val 15).getLsbD k = false := by
      intro x
      rcases h with h | h
      · exact getLsbD_field_of_lt h
      · exact getLsbD_field_of_ge (n := 12) x.isLt (by omega)
    simp [compose, BitVec.getLsbD_or, this]

/-- The noise-mode bits (R52, R76). -/
theorem insertField_compose_noise (S : Settings) (c : Calc) (ln : Bool) :
    insertField (compose hw .r2 S c) 30 29 (noiseValue hw ln)
      = some (compose hw .r2 { S with lownoise := ln } c) := by
  have hb : ∀ k, 29 ≤ k → k ≤ 30 → baseWords.r2.getLsbD k = false := by
    intro k h1 h2; interval_cases k <;> rfl
  apply insertField_eq_of_bits (by omega) (by omega) (by omega) (noiseValue_lt _ _)
  · intro k h1 h2
    simp [compose, staticWord, powerWord, RegFile.get, hb k h1 h2, BitVec.getLsbD_or,
      getLsbD_field_mid h1 (show k < 32 by omega)]
  · intro k hk h
    have : ∀ x : Bool, (field (noiseValue hw x) 29).getLsbD k = false := by
      intro x
      rcases h with h | h
      · exact getLsbD_field_of_lt h
      · exact getLsbD_field_of_ge (n := 2) (noiseValue_lt _ _) (by omega)
    simp [compose, BitVec.getLsbD_or, this]

/-- A settings change outside what a register reads leaves its word (R55). -/
theorem compose_congr {i : RegIx} {S S' : Settings} (c : Calc)
    (hp : i = .r3 → S'.pwr = S.pwr) (ho : i = .r4 → S'.outen = S.outen)
    (hph : i = .r1 → S'.phase = S.phase) (hl : i = .r2 → S'.lownoise = S.lownoise) :
    compose hw i S' c = compose hw i S c := by
  cases i <;> simp_all [compose, powerWord]

end Sys2Proof.Machine
end

