-- ==== Sys2Proof/Laws/Frequency.lean ====
section
/-! SUPPORT. Small facts of the frequency computation (spec 41_frequency.md). -/

namespace Sys2Proof.Machine

/-- `pfd = ref` (R64). -/
@[simp] theorem pfdOf_eq (ref : Int) : pfdOf ref = ref := by simp [pfdOf, rDiv]

/-- A computation that does not fault is the record of R62 to R69 with `int` within its limits (R68). -/
theorem freqCalc_ok_iff (P : Params) (hz ref : Int) (c : Calc) :
    freqCalc P hz ref = .ok c ↔
      c = calcOf P hz ref ∧ intMin P c.p ≤ c.int ∧ c.int ≤ P.intMax := by
  simp only [freqCalc]
  split
  · refine ⟨fun h => (by cases h), ?_⟩
    rintro ⟨rfl, h1, h2⟩; omega
  · exact ⟨fun h => (by cases h; exact ⟨rfl, by omega, by omega⟩), fun h => by rw [h.1]⟩

/-- "It faults only through rule R68" (R70). -/
theorem freqCalc_error_iff (P : Params) (hz ref : Int) (code : FaultCode) :
    freqCalc P hz ref = .error code ↔
      code = .intRange ∧ ((calcOf P hz ref).int < intMin P (calcOf P hz ref).p
        ∨ P.intMax < (calcOf P hz ref).int) := by
  simp only [freqCalc]
  split
  · rename_i h
    exact ⟨fun h' => (by cases h'; exact ⟨rfl, h⟩), fun h' => by rw [h'.1]⟩
  · rename_i h
    exact ⟨fun h' => (by cases h'), fun h' => absurd h'.2 h⟩

/-- `ceil(a / b)` is the least integer whose product with `b` reaches `a` (R9). -/
theorem ceilDiv_spec (a : Int) {b : Int} (hb : 0 < b) :
    a ≤ b * ceilDiv a b ∧ b * (ceilDiv a b - 1) < a := by
  have h1 := Int.mul_ediv_add_emod (-a) b
  have h2 := Int.emod_nonneg (-a) (by omega : b ≠ 0)
  have h3 := Int.emod_lt_of_pos (-a) hb
  unfold ceilDiv
  constructor <;> nlinarith

/-- A clamp lies between its bounds (R9). -/
theorem clamp_mem (x : Int) {lo hi : Int} (h : lo ≤ hi) : lo ≤ clamp x lo hi ∧ clamp x lo hi ≤ hi := by
  unfold clamp; omega

theorem clampPower_val (x : Int) : ((clampPower x).val : Int) = clamp x 0 3 := by
  have := clamp_mem x (show (0 : Int) ≤ 3 by omega)
  simp only [clampPower, Nat.cast_ofNat]; omega

theorem clampPhase_val (x : Int) : ((clampPhase x).val : Int) = clamp x 0 4095 := by
  have := clamp_mem x (show (0 : Int) ≤ 4095 by omega)
  simp only [clampPhase, Nat.cast_ofNat]; omega

end Sys2Proof.Machine
end

