-- ==== Sys2Proof/Laws/Exec.lean ====
section
/-! SUPPORT. The checks of a command, the shared bodies, and one inversion lemma that says everything an
instruction can do when it answers a next state. -/

namespace Sys2Proof.Machine

/-! ### The checks (R92, R93, R105) -/

theorem whenReady_of_noFault {s : State} {body : State → Result} (hs : s.ser = .idle)
    (hf : s.fault = .none) : whenReady s body = body s := by
  simp [whenReady, hs, hf]

theorem whenReady_of_fault {s : State} {body : State → Result} (hs : s.ser = .idle)
    (hf : s.fault ≠ .none) : whenReady s body = .next s := by
  simp [whenReady, hs, hf]

theorem whenReady_of_shifting {s : State} {body : State → Result} {w : Word} {i : Fin 32} {b : BitStep}
    (hs : s.ser = .shifting w i b) : whenReady s body = .refused .overlappingCommand := by
  simp [whenReady, hs]

theorem whenInited_of_accepts {s : State} {body : State → Result} (h : s.Accepts) :
    whenInited s body = body s := by
  simp [whenInited, whenReady, h.serIdle, h.noFault, h.inited]

theorem whenInited_of_notInited {s : State} {body : State → Result} (hs : s.ser = .idle)
    (hf : s.fault = .none) (hi : s.inited = false) :
    whenInited s body = .next { s with fault := .notInit } := by
  simp [whenInited, whenReady, hs, hf, hi, raise]

theorem whenInited_of_fault {s : State} {body : State → Result} (hs : s.ser = .idle)
    (hf : s.fault ≠ .none) : whenInited s body = .next s := by
  simp [whenInited, whenReady, hs, hf]

/-- What `whenReady` answering a next state means. -/
theorem whenReady_next {s t : State} {body : State → Result} (h : whenReady s body = .next t) :
    s.ser = .idle ∧ ((s.fault ≠ .none ∧ t = s) ∨ (s.fault = .none ∧ body s = .next t)) := by
  unfold whenReady at h
  split at h
  · cases h
  · rename_i hs
    refine ⟨hs, ?_⟩
    split at h
    · exact .inr ⟨‹_›, h⟩
    · cases h; exact .inl ⟨‹_›, rfl⟩

/-- What `whenInited` answering a next state means. -/
theorem whenInited_next {s t : State} {body : State → Result} (h : whenInited s body = .next t) :
    s.ser = .idle ∧ ((s.fault ≠ .none ∧ t = s)
      ∨ (s.fault = .none ∧ s.inited = false ∧ t = { s with fault := .notInit })
      ∨ (s.Accepts ∧ body s = .next t)) := by
  obtain ⟨hs, h | ⟨hf, h⟩⟩ := whenReady_next h
  · exact ⟨hs, .inl h⟩
  · refine ⟨hs, .inr ?_⟩
    by_cases hi : s.inited = true
    · rw [if_pos hi] at h
      exact .inr ⟨⟨hs, hf, hi⟩, h⟩
    · rw [if_neg hi, raise_of_noFault hf] at h
      cases h
      exact .inl ⟨hf, Bool.eq_false_iff.2 hi, rfl⟩

/-! ### The arms of `exec` -/

section
variable (arg : Arg) (s : State)
theorem exec_init : exec (.init arg) s
    = whenReady s fun s => .next (initWith hw arg.toInt s) := rfl
theorem exec_setFreq : exec (.setFreq arg) s
    = whenInited s fun s => .next (setFreqWith hw arg.toInt s) := rfl
theorem exec_setPower : exec (.setPower arg) s
    = whenInited s fun s => setPowerWith hw arg.toInt s := rfl
theorem exec_enableOutput : exec (.enableOutput arg) s
    = whenInited s fun s => outputEnableTo (argBool arg) s := rfl
theorem exec_setPhase : exec (.setPhase arg) s
    = whenInited s fun s => phaseTo arg.toInt s := rfl
theorem exec_setLowNoise : exec (.setLowNoise arg) s
    = whenInited s fun s => noiseModeTo hw (argBool arg) s := rfl
theorem exec_getFreq : exec (.getFreq arg) s
    = whenInited s fun s => .next (respond true (freqValue s.S.fout) s) := rfl
theorem exec_isLocked : exec (.isLocked arg) s
    = whenInited s fun s => .next (respond true (boolValue (sampleLd s).1) (sampleLd s).2) := rfl
theorem exec_reserved (code : BitVec 3) : exec (.reserved code arg) s
    = whenReady s fun s => .next (raise .badOp s) := rfl
theorem exec_disableOutput : exec .disableOutput s
    = whenInited s fun s => outputEnableTo false s := rfl
theorem exec_setLowSpur : exec .setLowSpur s
    = whenInited s fun s => noiseModeTo hw false s := rfl
end

/-- A register word of any format is one transfer of its word (R80). -/
theorem exec_busWord {i : Instr} {w : Word} (h : encode i = .busWord w) (s : State) :
    exec i s = sendWord w s := by
  cases i <;> cases h <;> rfl

/-! ### The setting operation (R73 to R76) -/

/-- A setting command whose insert is defined: one register changed, one word sent, response (1, 0). -/
theorem insertAndSend_eq {i : RegIx} {hi lo v : Nat} {s : State} {w : Word}
    (h : insertField (s.reg.get i) hi lo v = some w) :
    insertAndSend i hi lo v s
      = .next (respond true 0 (emitAll (wordEvents w) { s with reg := s.reg.set i w })) := by
  simp [insertAndSend, h, transmit_one]

/-! ### `SET_FREQ` and `INIT` (R58, R71) -/

theorem setFreqBody_of_not_inRange {P : Params} {hz : Int} {s : State} (h : ¬ InRange hz) :
    setFreqBody P hz s = .rejected := by
  rw [setFreqBody, if_neg h]

theorem setFreqBody_of_error {P : Params} {hz : Int} {s : State} {code : FaultCode} (h : InRange hz)
    (hc : freqCalc P hz s.S.ref = .error code) : setFreqBody P hz s = .raised (raise code s) := by
  rw [setFreqBody, if_pos h, hc]

/-- A successful body: all six words from `Compose`, one full update, the new frequency (R71). -/
theorem setFreqBody_of_ok {P : Params} {hz : Int} {s : State} {c : Calc} (h : InRange hz)
    (hc : freqCalc P hz s.S.ref = .ok c) :
    setFreqBody P hz s
      = .done { emitAll (sentWords (fullUpdateWords (composeAll P s.S c)))
                  { s with reg := composeAll P s.S c } with S := { s.S with fout := hz } } := by
  rw [setFreqBody, if_pos h, hc]
  simp only [transmit_fullUpdate, emitAll_S]

/-- Everything `INIT` does before its frequency is programmed (R58, R59). -/
theorem initPrepare_eq (P : Params) (ref : Int) (s : State) :
    initPrepare P ref s
      = { emitAll (pinsIdleEvents P ++ sentWords (fullUpdateWords P.baseline)) s with
            reg := P.baseline
            S := { ref := ref, fout := 0, pwr := 3, outen := true, phase := 0, lownoise := true } } := by
  simp [initPrepare, transmit_fullUpdate, pinsIdle, emitAll, Bus.driveAll_append]

/-! ### Everything an instruction can do -/

/-- The next states of an instruction. -/
inductive ExecEffect : Instr → State → State → Prop
  /-- Refused while `FAULT` is not 0, with nothing changed (R92). -/
  | refused {i s} (h : s.fault ≠ .none) : ExecEffect i s s
  /-- A fault taken before anything is written (R91). -/
  | faulted {i s} (code : FaultCode) (hf : s.fault = .none) (hc : code ≠ .none)
      (hcmd : i.IsCommand = true) : ExecEffect i s { s with fault := code }
  /-- An initialisation that runs (R58). -/
  | initialised {arg s} (hf : s.fault = .none) (hi : s.inited = false)
      (h1 : hw.refMinHz ≤ arg.toInt) (h2 : arg.toInt ≤ hw.refMaxHz) :
      ExecEffect (.init arg) s (initBody hw arg.toInt s)
  /-- A frequency out of range (R71). -/
  | rejected {arg s} (ha : s.Accepts) (h : ¬ InRange arg.toInt) :
      ExecEffect (.setFreq arg) s (respond false 0 s)
  /-- A frequency programmed (R71). -/
  | programmed {arg s c} (ha : s.Accepts) (h : InRange arg.toInt)
      (hc : freqCalc hw arg.toInt s.S.ref = .ok c) :
      ExecEffect (.setFreq arg) s
        (respond true 0
          { emitAll (sentWords (fullUpdateWords (composeAll hw s.S c)))
              { s with reg := composeAll hw s.S c } with S := { s.S with fout := arg.toInt } })
  /-- Power level (R73). -/
  | power {arg s w} (ha : s.Accepts)
      (h : insertField s.reg.r3 4 3 (clampPower arg.toInt).val = some w) :
      ExecEffect (.setPower arg) s
        (respond true 0 (emitAll (wordEvents w)
          { s with S := { s.S with pwr := clampPower arg.toInt }, reg := s.reg.set .r3 w }))
  /-- Output enable (R74). -/
  | output {i s w} (en : Bool) (ha : s.Accepts)
      (hi : (∃ arg, i = .enableOutput arg ∧ en = argBool arg) ∨ (i = .disableOutput ∧ en = false))
      (h : insertField s.reg.r4 5 5 (bit (!en)) = some w) :
      ExecEffect i s
        (respond true 0 (emitAll (wordEvents w)
          { s with S := { s.S with outen := en }, reg := s.reg.set .r4 w }))
  /-- Phase (R75). -/
  | phase {arg s w} (ha : s.Accepts)
      (h : insertField s.reg.r1 26 15 (clampPhase arg.toInt).val = some w) :
      ExecEffect (.setPhase arg) s
        (respond true 0 (emitAll (wordEvents w)
          { s with S := { s.S with phase := clampPhase arg.toInt }, reg := s.reg.set .r1 w }))
  /-- Noise mode (R76). -/
  | noise {i s w} (ln : Bool) (ha : s.Accepts)
      (hi : (∃ arg, i = .setLowNoise arg ∧ ln = argBool arg) ∨ (i = .setLowSpur ∧ ln = false))
      (h : insertField s.reg.r2 30 29 (noiseValue hw ln) = some w) :
      ExecEffect i s
        (respond true 0 (emitAll (wordEvents w)
          { s with S := { s.S with lownoise := ln }, reg := s.reg.set .r2 w }))
  /-- Frequency read-back (R77). -/
  | readback {arg s} (ha : s.Accepts) :
      ExecEffect (.getFreq arg) s (respond true (freqValue s.S.fout) s)
  /-- Lock status (R78). -/
  | sampled {arg s} (ha : s.Accepts) :
      ExecEffect (.isLocked arg) s (respond true (boolValue (sampleLd s).1) (sampleLd s).2)
  /-- A register word on the bus (R80). -/
  | word {i s w} (hf : s.fault = .none) (hi : encode i = .busWord w) :
      ExecEffect i s (writeWord w s)

theorem sendWord_effect {i : Instr} {w : Word} {s t : State} (hi : encode i = .busWord w)
    (h : sendWord w s = .next t) : s.ser = .idle ∧ ExecEffect i s t := by
  obtain ⟨hs, ⟨hf, rfl⟩ | ⟨hf, h⟩⟩ := whenReady_next h
  · exact ⟨hs, .refused hf⟩
  · cases h; exact ⟨hs, .word hf hi⟩

theorem insertField_power_defined (w : Word) (v : Fin 4) : ∃ w', insertField w 4 3 v.val = some w' :=
  ⟨_, insertField_eq_some (by omega) (by omega) (by omega) v.isLt⟩

theorem insertField_outen_defined (w : Word) (b : Bool) : ∃ w', insertField w 5 5 (bit b) = some w' :=
  ⟨_, insertField_eq_some (by omega) (by omega) (by omega) (bit_lt_two b)⟩

theorem insertField_phase_defined (w : Word) (v : Fin 4096) :
    ∃ w', insertField w 26 15 v.val = some w' :=
  ⟨_, insertField_eq_some (by omega) (by omega) (by omega) v.isLt⟩

theorem insertField_noise_defined (w : Word) (b : Bool) :
    ∃ w', insertField w 30 29 (noiseValue hw b) = some w' :=
  ⟨_, insertField_eq_some (by omega) (by omega) (by omega) (noiseValue_lt hw b)⟩

/-- The power setting at the parameters of this hardware. -/
theorem setPowerWith_hw {s : State} {w : Word} (level : Int)
    (h : insertField s.reg.r3 4 3 (clampPower level).val = some w) :
    setPowerWith hw level s
      = .next (respond true 0 (emitAll (wordEvents w)
          { s with S := { s.S with pwr := clampPower level }, reg := s.reg.set .r3 w })) := by
  simp only [setPowerWith, hw_powerField]
  exact insertAndSend_eq h

theorem outputEnableTo_eq {s : State} {w : Word} (en : Bool)
    (h : insertField s.reg.r4 5 5 (bit (!en)) = some w) :
    outputEnableTo en s
      = .next (respond true 0 (emitAll (wordEvents w)
          { s with S := { s.S with outen := en }, reg := s.reg.set .r4 w })) := by
  unfold outputEnableTo
  exact insertAndSend_eq h

theorem phaseTo_eq {s : State} {w : Word} (ph : Int)
    (h : insertField s.reg.r1 26 15 (clampPhase ph).val = some w) :
    phaseTo ph s
      = .next (respond true 0 (emitAll (wordEvents w)
          { s with S := { s.S with phase := clampPhase ph }, reg := s.reg.set .r1 w })) := by
  simp only [phaseTo]
  exact insertAndSend_eq h

theorem noiseModeTo_eq {s : State} {w : Word} (ln : Bool)
    (h : insertField s.reg.r2 30 29 (noiseValue hw ln) = some w) :
    noiseModeTo hw ln s
      = .next (respond true 0 (emitAll (wordEvents w)
          { s with S := { s.S with lownoise := ln }, reg := s.reg.set .r2 w })) := by
  unfold noiseModeTo
  exact insertAndSend_eq h

theorem whenInited_effect {i : Instr} {s t : State} {body : State → Result} (hi : i.IsCommand = true)
    (h : whenInited s body = .next t)
    (hb : s.Accepts → body s = .next t → ExecEffect i s t) : s.ser = .idle ∧ ExecEffect i s t := by
  obtain ⟨hs, ⟨hf, rfl⟩ | ⟨hf, -, rfl⟩ | ⟨ha, h⟩⟩ := whenInited_next h
  · exact ⟨hs, .refused hf⟩
  · exact ⟨hs, .faulted _ hf (by decide) hi⟩
  · exact ⟨hs, hb ha h⟩

theorem outputEnableTo_effect {i : Instr} {en : Bool} {s t : State} (ha : s.Accepts)
    (hi : (∃ arg, i = .enableOutput arg ∧ en = argBool arg) ∨ (i = .disableOutput ∧ en = false))
    (h : outputEnableTo en s = .next t) : ExecEffect i s t := by
  obtain ⟨w, hw'⟩ := insertField_outen_defined s.reg.r4 (!en)
  rw [outputEnableTo_eq en hw'] at h
  cases h
  exact .output en ha hi hw'

theorem noiseModeTo_effect {i : Instr} {ln : Bool} {s t : State} (ha : s.Accepts)
    (hi : (∃ arg, i = .setLowNoise arg ∧ ln = argBool arg) ∨ (i = .setLowSpur ∧ ln = false))
    (h : noiseModeTo hw ln s = .next t) : ExecEffect i s t := by
  obtain ⟨w, hw'⟩ := insertField_noise_defined s.reg.r2 ln
  rw [noiseModeTo_eq ln hw'] at h
  cases h
  exact .noise ln ha hi hw'

/-- The inversion lemma of `exec`: a next state comes from an idle serializer by one of these effects. -/
theorem exec_effect {i : Instr} {s t : State} (h : exec i s = .next t) :
    s.ser = .idle ∧ ExecEffect i s t := by
  cases i with
  | init arg =>
    rw [exec_init] at h
    obtain ⟨hs, ⟨hf, rfl⟩ | ⟨hf, h⟩⟩ := whenReady_next h
    · exact ⟨hs, .refused hf⟩
    · refine ⟨hs, ?_⟩
      simp only [initWith] at h
      split at h
      · cases h; rw [raise_of_noFault hf]; exact .faulted _ hf (by decide) rfl
      · rename_i hi
        split at h
        · cases h; rw [raise_of_noFault hf]; exact .faulted _ hf (by decide) rfl
        · cases h
          exact .initialised hf (by simpa using hi) (by omega) (by omega)
  | setFreq arg =>
    rw [exec_setFreq] at h
    refine whenInited_effect rfl h fun ha h => ?_
    simp only [setFreqWith] at h
    by_cases hr : InRange arg.toInt
    · cases hc : freqCalc hw arg.toInt s.S.ref with
      | error code =>
        rw [setFreqBody_of_error hr hc] at h
        cases h
        rw [raise_of_noFault ha.noFault]
        exact .faulted code ha.noFault
          (by rw [((freqCalc_error_iff _ _ _ _).1 hc).1]; decide) rfl
      | ok c =>
        rw [setFreqBody_of_ok hr hc] at h
        cases h
        exact .programmed ha hr hc
    · rw [setFreqBody_of_not_inRange hr] at h
      cases h
      exact .rejected ha hr
  | setPower arg =>
    rw [exec_setPower] at h
    refine whenInited_effect rfl h fun ha h => ?_
    obtain ⟨w, hw'⟩ := insertField_power_defined s.reg.r3 (clampPower arg.toInt)
    rw [setPowerWith_hw _ hw'] at h
    cases h
    exact .power ha hw'
  | enableOutput arg =>
    rw [exec_enableOutput] at h
    exact whenInited_effect rfl h fun ha h => outputEnableTo_effect ha (.inl ⟨arg, rfl, rfl⟩) h
  | setPhase arg =>
    rw [exec_setPhase] at h
    refine whenInited_effect rfl h fun ha h => ?_
    obtain ⟨w, hw'⟩ := insertField_phase_defined s.reg.r1 (clampPhase arg.toInt)
    rw [phaseTo_eq _ hw'] at h
    cases h
    exact .phase ha hw'
  | setLowNoise arg =>
    rw [exec_setLowNoise] at h
    exact whenInited_effect rfl h fun ha h => noiseModeTo_effect ha (.inl ⟨arg, rfl, rfl⟩) h
  | getFreq arg =>
    rw [exec_getFreq] at h
    refine whenInited_effect rfl h fun ha h => ?_
    cases h; exact .readback ha
  | isLocked arg =>
    rw [exec_isLocked] at h
    refine whenInited_effect rfl h fun ha h => ?_
    cases h; exact .sampled ha
  | reserved code arg =>
    rw [exec_reserved] at h
    obtain ⟨hs, ⟨hf, rfl⟩ | ⟨hf, h⟩⟩ := whenReady_next h
    · exact ⟨hs, .refused hf⟩
    · cases h; rw [raise_of_noFault hf]; exact ⟨hs, .faulted _ hf (by decide) rfl⟩
  | disableOutput =>
    rw [exec_disableOutput] at h
    exact whenInited_effect rfl h fun ha h => outputEnableTo_effect ha (.inr ⟨rfl, rfl⟩) h
  | setLowSpur =>
    rw [exec_setLowSpur] at h
    exact whenInited_effect rfl h fun ha h => noiseModeTo_effect ha (.inr ⟨rfl, rfl⟩) h
  | reg0IntFrac f => exact sendWord_effect rfl h
  | reg1PhaseModPrescaler f => exact sendWord_effect rfl h
  | reg2NoiseRefMux f => exact sendWord_effect rfl h
  | reg3PowerCp f => exact sendWord_effect rfl h
  | reg4RfdivBscOuten f => exact sendWord_effect rfl h
  | reg5LdPin f => exact sendWord_effect rfl h
  | regAddr67 f => exact sendWord_effect rfl h

/-- What a step is. -/
theorem step_cases {s t : State} (h : step s = .next t) :
    (s.ser ≠ .idle ∧ t = serTick s)
    ∨ (s.ser = .idle ∧ s.issue = [] ∧ t = s)
    ∨ (∃ item rest, s.ser = .idle ∧ s.issue = item :: rest
        ∧ ExecEffect (decode item) { s with issue := rest } t) := by
  unfold step at h
  split at h
  · rename_i hs; cases h; exact .inl ⟨by simp [hs], rfl⟩
  · rename_i hs
    split at h
    · rename_i hq; cases h; exact .inr (.inl ⟨hs, hq, rfl⟩)
    · rename_i item rest hq
      exact .inr (.inr ⟨item, rest, hs, hq, (exec_effect h).2⟩)

/-- A run of one step more, for any machine. -/
theorem run_succ_of_next {M : Host.Core} {n : Nat} {s s' : M.State} (h : M.step s = .next s') :
    M.run (n + 1) s = M.run n s' := by
  rw [Host.Core.run, h]

/-- A run of this machine, one step unfolded. -/
theorem run_core_succ {n : Nat} {s s' : State} (h : step s = .next s') :
    Host.Core.run Sys2Proof.core (n + 1) s = Host.Core.run Sys2Proof.core n s' :=
  run_succ_of_next (M := Sys2Proof.core) h

end Sys2Proof.Machine
end

