-- ==== Sys2Proof/Laws/PerInstr.lean ====
section
/-! SUPPORT. One fact per constructor of Instr: the encoded word matches its row of spec/opcode_table.json. -/

namespace Sys2Proof.Laws.MatchesTableRow

/-- The mask and match of an instruction's row of spec/opcode_table.json, at its format's width. -/
def Row : Issue → BitVec 68 → BitVec 68 → Word → Word → Prop
  | .command w, mask, value, _, _ => w &&& mask = value
  | .busWord w, _, _, mask, value => w &&& mask = value

/-- The word of a command row under `mask` is `value`. -/
abbrev CommandRow (i : Instr) (mask value : BitVec 68) : Prop := Row (encode i) mask value 1 0

/-- The word of a register-word row under `mask` is `value`. -/
abbrev WordRow (i : Instr) (mask value : Word) : Prop := Row (encode i) 1 0 mask value

/-- The encoded word of an instruction has its row's fixed bits. -/
def Statement (i : Instr) : Prop :=
  match i with
  | .init _ => CommandRow i 0xF0000000000000000 0x00000000000000000
  | .setFreq _ => CommandRow i 0xF0000000000000000 0x10000000000000000
  | .setPower _ => CommandRow i 0xF0000000000000000 0x20000000000000000
  | .enableOutput _ => CommandRow i 0xF0000000000000000 0x30000000000000000
  | .setPhase _ => CommandRow i 0xF0000000000000000 0x40000000000000000
  | .setLowNoise _ => CommandRow i 0xF0000000000000000 0x50000000000000000
  | .getFreq _ => CommandRow i 0xF0000000000000000 0x60000000000000000
  | .isLocked _ => CommandRow i 0xF0000000000000000 0x70000000000000000
  | .reserved _ _ => CommandRow i 0x80000000000000000 0x80000000000000000
  | .disableOutput => CommandRow i 0xFFFFFFFFFFFFFFFFF 0x30000000000000000
  | .setLowSpur => CommandRow i 0xFFFFFFFFFFFFFFFFF 0x50000000000000000
  | .reg0IntFrac _ => WordRow i 0x7 0x0
  | .reg1PhaseModPrescaler _ => WordRow i 0x7 0x1
  | .reg2NoiseRefMux _ => WordRow i 0x7 0x2
  | .reg3PowerCp _ => WordRow i 0x7 0x3
  | .reg4RfdivBscOuten _ => WordRow i 0x7 0x4
  | .reg5LdPin _ => WordRow i 0x7 0x5
  | .regAddr67 _ => WordRow i 0x6 0x6

/-- The operation code of a command word, under the mask of its four bits. -/
theorem commandWord_and_mask (op : BitVec 4) (arg : Arg) :
    commandWord op arg &&& 0xF0000000000000000 = op ++ (0 : Arg) := by
  rw [show (0xF0000000000000000 : BitVec 68) = (0xF#4 ++ (0 : Arg) : BitVec 68) from rfl, commandWord,
    BitVec.and_append]
  congr 1
  · revert op; decide
  · simp

/-- The address of a register word, under the mask of its three bits. -/
theorem append_addr_and_mask (hi : BitVec 29) (a : BitVec 3) :
    (hi ++ a : Word) &&& 0x7 = (0 : BitVec 29) ++ a := by
  rw [show (0x7 : Word) = ((0 : BitVec 29) ++ 0b111#3 : Word) from rfl, BitVec.and_append]
  congr 1
  · simp
  · revert a; decide

theorem init (arg : Arg) : Statement (.init arg) := commandWord_and_mask _ arg
theorem setFreq (arg : Arg) : Statement (.setFreq arg) := commandWord_and_mask _ arg
theorem setPower (arg : Arg) : Statement (.setPower arg) := commandWord_and_mask _ arg
theorem enableOutput (arg : Arg) : Statement (.enableOutput arg) := commandWord_and_mask _ arg
theorem setPhase (arg : Arg) : Statement (.setPhase arg) := commandWord_and_mask _ arg
theorem setLowNoise (arg : Arg) : Statement (.setLowNoise arg) := commandWord_and_mask _ arg
theorem getFreq (arg : Arg) : Statement (.getFreq arg) := commandWord_and_mask _ arg
theorem isLocked (arg : Arg) : Statement (.isLocked arg) := commandWord_and_mask _ arg

theorem reserved (code : BitVec 3) (arg : Arg) : Statement (.reserved code arg) := by
  show commandWord (0b1#1 ++ code) arg &&& 0x80000000000000000 = 0x80000000000000000
  rw [show (0x80000000000000000 : BitVec 68) = (0x8#4 ++ (0 : Arg) : BitVec 68) from rfl, commandWord,
    BitVec.and_append]
  congr 1
  · revert code; decide
  · simp

theorem disableOutput : Statement .disableOutput := rfl
theorem setLowSpur : Statement .setLowSpur := rfl

theorem reg0IntFrac (f : Reg0Word) : Statement (.reg0IntFrac f) := append_addr_and_mask _ _
theorem reg1PhaseModPrescaler (f : Reg1Word) : Statement (.reg1PhaseModPrescaler f) :=
  append_addr_and_mask _ _
theorem reg2NoiseRefMux (f : Reg2Word) : Statement (.reg2NoiseRefMux f) := append_addr_and_mask _ _
theorem reg3PowerCp (f : Reg3Word) : Statement (.reg3PowerCp f) := append_addr_and_mask _ _
theorem reg4RfdivBscOuten (f : Reg4Word) : Statement (.reg4RfdivBscOuten f) :=
  append_addr_and_mask _ _
theorem reg5LdPin (f : Reg5Word) : Statement (.reg5LdPin f) := append_addr_and_mask _ _

theorem regAddr67 (f : Reg67Word) : Statement (.regAddr67 f) := by
  show (f.rest ++ 0b11#2 ++ f.addrLow : Word) &&& 0x6 = 0x6
  rw [show (0x6 : Word) = ((0 : BitVec 29) ++ 0b11#2 ++ 0#1 : Word) from rfl, BitVec.and_append,
    BitVec.and_append]
  simp

end Sys2Proof.Laws.MatchesTableRow
end

