-- ==== Sys2Proof/Laws/Words.lean ====
section
/-! SUPPORT. Slices of concatenations, for decoding encoded words. -/

namespace Sys2Proof

/-- A slice above the low part is a slice of the high part. -/
theorem slice_append_hi {a b : Nat} (x : BitVec a) (y : BitVec b) (lo n : Nat) (h : b ≤ lo) :
    slice (x ++ y) lo n = slice x (lo - b) n := BitVec.extractLsb'_append_eq_of_le h

/-- A slice inside the low part is a slice of the low part. -/
theorem slice_append_lo {a b : Nat} (x : BitVec a) (y : BitVec b) (lo n : Nat) (h : lo + n ≤ b) :
    slice (x ++ y) lo n = slice y lo n := BitVec.extractLsb'_append_eq_of_add_le h

@[simp] theorem slice_full {a : Nat} (x : BitVec a) : slice x 0 a = x := by simp [slice]

/-- Adjacent slices concatenate to one. -/
theorem slice_append_slice {k : Nat} (w : BitVec k) (lo n m : Nat) :
    slice w (lo + n) m ++ slice w lo n = slice w lo (m + n) :=
  BitVec.extractLsb'_append_extractLsb'_eq_extractLsb' rfl

theorem getLsbD_slice {k : Nat} (w : BitVec k) (lo n i : Nat) :
    (slice w lo n).getLsbD i = (decide (i < n) && w.getLsbD (lo + i)) := by
  simp [slice, BitVec.getLsbD_extractLsb']

/-- The parts of a command word. -/
theorem slice_commandWord_arg (op : BitVec 4) (arg : Arg) : slice (commandWord op arg) 0 64 = arg := by
  rw [commandWord, slice_append_lo _ _ _ _ (by omega), slice_full]

theorem slice_commandWord_op (op : BitVec 4) (arg : Arg) : slice (commandWord op arg) 64 4 = op := by
  rw [commandWord, slice_append_hi _ _ _ _ (by omega), slice_full]

end Sys2Proof
end

