-- ==== Sys2Proof/Tests/Slice0.lean ====
section
/-! SUPPORT. Tests: the well-formedness smoke test, the decoding of written-out words, single commands of spec
95_test_vectors.md (the vector is named at each), and a witness for every obligation with hypotheses. -/

namespace Sys2Proof.Tests

open Sys2Proof.Machine

set_option maxRecDepth 20000

/-- Every answer is a next state with property `p`. -/
def nextHas (r : Result) (p : State → Bool) : Bool :=
  match r with
  | .next t => p t
  | .fault _ => false
  | .refused _ => false

/-- The register words of State A (95_test_vectors.md, Conventions). -/
def regsA : RegFile :=
  { r0 := 0x00400000, r1 := 0x00001F41, r2 := 0x38004E42, r3 := 0x000004BB, r4 := 0x00DC801C, r5 := 0x00580005 }

/-- State A of 95_test_vectors.md, with the observation of the run left empty. -/
def stateA : State :=
  { State.reset with
    reg := regsA
    S := { ref := 25000000, fout := 100000000, pwr := 3, outen := true, phase := 0, lownoise := true }
    inited := true
    respOk := true
    bus := { pins := { le := some true, clk := some false, data := some false, ce := some true }
             dev := { sr := 0x00400000, reg := regsA, opens := 0 } } }

/-! ### Well-formedness -/

theorem test_wellFormed_refuses_enableOutput_zero : Instr.WellFormed (.enableOutput 0) = false := by decide
theorem test_wellFormed_refuses_setLowNoise_zero : Instr.WellFormed (.setLowNoise 0) = false := by decide

/-! ### Decoding: words written out from R39 to R43 -/

theorem test_decode_init : decode (.command (0b0000#4 ++ 25000000#64)) = .init 25000000 := by decide
/-- V-ENC-1. -/
theorem test_decode_setFreq : decode (.command 0x10000000008A48640) = .setFreq 145000000 := by decide
/-- V-ENC-2. -/
theorem test_decode_setPower : decode (.command 0x2FFFFFFFFFFFFFFFF) = .setPower (-1) := by decide
theorem test_decode_enableOutput : decode (.command 0x30000000000000007) = .enableOutput 7 := by decide
theorem test_decode_setPhase : decode (.command 0x40000000000001000) = .setPhase 4096 := by decide
theorem test_decode_setLowNoise : decode (.command 0x50000000000000001) = .setLowNoise 1 := by decide
theorem test_decode_getFreq : decode (.command 0x60000000000003039) = .getFreq 12345 := by decide
theorem test_decode_isLocked : decode (.command 0x70000000000000000) = .isLocked 0 := by decide
theorem test_decode_reserved_8 : decode (.command 0x80000000000000000) = .reserved 0 0 := by decide
theorem test_decode_reserved_15 : decode (.command 0xF0000000000000001) = .reserved 7 1 := by decide
theorem test_decode_disableOutput : decode (.command 0x30000000000000000) = .disableOutput := by decide
theorem test_decode_setLowSpur : decode (.command 0x50000000000000000) = .setLowSpur := by decide

/-! ### Decoding: register words written out field by field from R46 to R51, R56 -/

theorem test_decode_reg0 :
    decode (.busWord (0b1#1 ++ 0b0000000001011100#16 ++ 0b001100100000#12 ++ 0b000#3))
      = .reg0IntFrac { rsvd := 1, int := 92, frac := 800 } := by decide

theorem test_decode_reg1 :
    decode (.busWord (0b101#3 ++ 0b0#1 ++ 0b1#1 ++ 0b111111111110#12 ++ 0b001111101000#12 ++ 0b001#3))
      = .reg1PhaseModPrescaler { rsvd := 5, phaseAdj := 0, prescaler := 1, phase := 4094, mod := 1000 } := by
  decide

theorem test_decode_reg2 :
    decode (.busWord (0b0#1 ++ 0b1#1 ++ 0b0#1 ++ 0b110#3 ++ 0b1#1 ++ 0b0#1 ++ 0b1000000001#10 ++ 0b1#1
        ++ 0b0111#4 ++ 0b0#1 ++ 0b1#1 ++ 0b0#1 ++ 0b1#1 ++ 0b0#1 ++ 0b1#1 ++ 0b010#3))
      = .reg2NoiseRefMux
          { rsvd := 0, lowSpur := 1, lowNoise := 0, muxout := 6, refDoubler := 1, refDiv2 := 0,
            rCounter := 513, doubleBuffer := 1, cpCurrent := 7, ldf := 0, ldp := 1, pdPolarity := 0,
            powerDown := 1, cpThreeState := 0, counterReset := 1 } := by decide

theorem test_decode_reg3 :
    decode (.busWord (0b10000001#8 ++ 0b0#1 ++ 0b1#1 ++ 0b0#1 ++ 0b10#2 ++ 0b1#1 ++ 0b0#1 ++ 0b10#2
        ++ 0b0000100101#10 ++ 0b11#2 ++ 0b011#3))
      = .reg3PowerCp
          { rsvdHi := 0x81, bscMode := 0, abp := 1, chargeCancel := 0, rsvdMid := 2, csr := 1,
            rsvdLo := 0, clkDivMode := 2, clkDivHi := 37, power := 3 } := by decide

theorem test_decode_reg4 :
    decode (.busWord (0b00000000#8 ++ 0b1#1 ++ 0b101#3 ++ 0b11001000#8 ++ 0b0#1 ++ 0b1#1 ++ 0b0#1
        ++ 0b1#1 ++ 0b10#2 ++ 0b1#1 ++ 0b01#2 ++ 0b100#3))
      = .reg4RfdivBscOuten
          { rsvd := 0, fbSelect := 1, rfDivSel := 5, bscDiv := 200, vcoPowerDown := 0, mtld := 1,
            auxSelect := 0, auxEnable := 1, auxPower := 2, outDisable := 1, rfPower := 1 } := by decide

theorem test_decode_reg5 :
    decode (.busWord (0b00000001#8 ++ 0b01#2 ++ 0b0#1 ++ 0b11#2 ++ 0b1000000000000000#16 ++ 0b101#3))
      = .reg5LdPin { rsvdHi := 1, ldPinMode := 1, rsvd21 := 0, rsvdOnes := 3, rsvdLo := 0x8000 } := by
  decide

theorem test_decode_address_six :
    decode (.busWord (1#29 ++ 0b110#3)) = .regAddr67 { rest := 1, addrLow := 0 } := by decide
theorem test_decode_address_seven :
    decode (.busWord (1#29 ++ 0b111#3)) = .regAddr67 { rest := 1, addrLow := 1 } := by decide

/-- The decoder rejects, by name, a value with bits above its format. -/
theorem test_decodeBits_refuses_wide :
    decodeBits 68 (2 ^ 68) = .error (.tooWide 68) ∧ decodeBits 32 (2 ^ 32) = .error (.tooWide 32) := by
  decide

/-- R43: one assembler line of each operand form. -/
theorem test_assemble :
    assemble .setPower (some (.number (-1))) = some 0x2FFFFFFFFFFFFFFFF
      ∧ assemble .enableOutput (some (.boolean true)) = some 0x30000000000000001
      ∧ assemble .setLowSpur none = some 0x50000000000000000
      ∧ assemble .setFreq (some (.boolean true)) = none
      ∧ assemble .init (some (.number (2 ^ 63))) = none := by decide

/-! ### Single commands of 95_test_vectors.md -/

/-- V-INIT-1. -/
theorem test_init_25MHz :
    nextHas (exec (.init 25000000) State.reset) (fun t =>
      t.reg = regsA ∧ t.S = stateA.S ∧ t.inited = true ∧ t.fault = .none ∧ t.events.length = 1180
        ∧ t.bus.dev.reg = regsA ∧ t.bus.pins = stateA.bus.pins) = true := by decide

/-- V-INIT-3, R0 and R4. -/
theorem test_init_lowest_reference :
    nextHas (exec (.init 67139) State.reset) (fun t => t.reg.r0 = 0x5D1709C8 ∧ t.reg.r4 = 0x00D0101C)
      = true := by decide

/-- V-L1-1. -/
theorem test_setFreq_145MHz :
    nextHas (exec (.setFreq 145000000) stateA) (fun t =>
      t.reg = { regsA with r0 := 0x002E1900, r4 := 0x00CC801C } ∧ t.events.length = 588
        ∧ t.S.fout = 145000000 ∧ t.respOk = true) = true := by decide

/-- V-DIV-2: `frac` = `MOD`, without carry; prescaler 8/9. -/
theorem test_setFreq_below_breakpoint :
    nextHas (exec (.setFreq 68749999) stateA) (fun t =>
      t.reg.r0 = 0x00579F40 ∧ t.reg.r1 = 0x08001F41 ∧ t.reg.r4 = 0x00EC801C) = true := by decide

/-- V-PWR-1. -/
theorem test_setPower_0 :
    nextHas (exec (.setPower 0) stateA) (fun t =>
      t.reg = { regsA with r3 := 0x000004A3 } ∧ t.S.pwr = 0 ∧ t.events.length = 98) = true := by decide

/-- V-PWR-6, from a level other than 0. -/
theorem test_setPower_negative :
    nextHas (exec (.setPower (-1)) stateA) (fun t => t.reg.r3 = 0x000004A3 ∧ t.S.pwr = 0) = true := by
  decide

/-- V-EN-4, after the output is disabled (V-EN-1). -/
theorem test_enableOutput_7 :
    nextHas (exec (.enableOutput 7) { stateA with reg := { regsA with r4 := 0x00DC803C } }) (fun t =>
      t.reg = regsA ∧ t.S.outen = true) = true := by decide

/-- V-EN-1. -/
theorem test_disableOutput :
    nextHas (exec .disableOutput stateA) (fun t =>
      t.reg = { regsA with r4 := 0x00DC803C } ∧ t.S.outen = false) = true := by decide

/-- V-PH-2. -/
theorem test_setPhase_4096 :
    nextHas (exec (.setPhase 4096) stateA) (fun t =>
      t.reg = { regsA with r1 := 0x07FF9F41 } ∧ t.S.phase = 4095) = true := by decide

/-- V-PH-1. -/
theorem test_setPhase_1 :
    nextHas (exec (.setPhase 1) stateA) (fun t => t.reg.r1 = 0x00009F41) = true := by decide

/-- V-LN-3, after V-LN-1. -/
theorem test_setLowNoise_negative :
    nextHas (exec (.setLowNoise (-1)) { stateA with reg := { regsA with r2 := 0x58004E42 } }) (fun t =>
      t.reg = regsA ∧ t.S.lownoise = true) = true := by decide

/-- V-LN-1. -/
theorem test_setLowSpur :
    nextHas (exec .setLowSpur stateA) (fun t =>
      t.reg = { regsA with r2 := 0x58004E42 } ∧ t.S.lownoise = false) = true := by decide

/-- V-GF-2. -/
theorem test_getFreq :
    nextHas (exec (.getFreq 12345) stateA) (fun t =>
      t.respOk = true ∧ t.respVal = 100000000 ∧ t.events = []) = true := by decide

/-- V-IL-1, V-IL-2. -/
theorem test_isLocked :
    nextHas (exec (.isLocked 0) { stateA with ldIn := [false] }) (fun t => t.respVal = 0) = true
      ∧ nextHas (exec (.isLocked 0) { stateA with ldIn := [true] }) (fun t => t.respVal = 1) = true := by
  decide

/-- V-FLT-8, V-FLT-9. -/
theorem test_reserved :
    exec (.reserved 0 0) stateA = .next { stateA with fault := .badOp }
      ∧ exec (.reserved 7 0) State.reset = .next { State.reset with fault := .badOp } := ⟨rfl, rfl⟩

/-- V-FLT-1, V-FLT-10, V-FLT-11. -/
theorem test_faults :
    exec (.setFreq 100000000) State.reset = .next { State.reset with fault := .notInit }
      ∧ exec (.init 25000000) stateA = .next { stateA with fault := .reinit }
      ∧ exec (.init 67138) State.reset = .next { State.reset with fault := .refRange } := ⟨rfl, rfl, rfl⟩

/-- V-SER-1. -/
theorem test_word_r5 :
    nextHas (exec (.reg5LdPin (.ofWord 0x00580005)) stateA) (fun t =>
      t.events.length = 98 ∧ t.events[28]? = some { line := .data, level := true }
        ∧ t.bus.pins.data = some true ∧ t.bus.dev.sr = 0x00580005
        ∧ t.bus.dev.reg = { regsA with r5 := 0x00580005 }) = true := by decide

/-- V-SER-2. -/
theorem test_word_r0 :
    nextHas (exec (.reg0IntFrac (.ofWord 0x002E1900)) stateA) (fun t =>
      t.bus.pins.data = some false ∧ t.bus.dev.reg = { regsA with r0 := 0x002E1900 }) = true := by decide

/-- R87 for the latches of registers 1 to 4. -/
theorem test_words_r1_to_r4 :
    nextHas (exec (.reg1PhaseModPrescaler (.ofWord 0x08001F41)) stateA) (fun t =>
        t.bus.dev.reg = { regsA with r1 := 0x08001F41 }) = true
      ∧ nextHas (exec (.reg2NoiseRefMux (.ofWord 0x58004E42)) stateA) (fun t =>
        t.bus.dev.reg = { regsA with r2 := 0x58004E42 }) = true
      ∧ nextHas (exec (.reg3PowerCp (.ofWord 0x000004A3)) stateA) (fun t =>
        t.bus.dev.reg = { regsA with r3 := 0x000004A3 }) = true
      ∧ nextHas (exec (.reg4RfdivBscOuten (.ofWord 0x00CC801C)) stateA) (fun t =>
        t.bus.dev.reg = { regsA with r4 := 0x00CC801C } ∧ t.reg = regsA) = true := by decide

/-- R56: a word with address 6 is transferred; `DEV_SR` holds it. -/
theorem test_word_address_six :
    nextHas (exec (.regAddr67 { rest := 1, addrLow := 0 }) stateA) (fun t =>
      t.bus.dev.sr = 0x0000000E ∧ t.reg = regsA ∧ t.events.length = 98) = true := by decide

/-! ### The frequency computation -/

/-- V-FRAC-5 (tie), V-FRAC-6, V-FRAC-4, V-DIV-20: `frac` under the defaults. -/
theorem test_frac :
    (calcOf hw 2200012500 25000000).frac = 1 ∧ (calcOf hw 2200012499 25000000).frac = 0
      ∧ (calcOf hw 2224990000 25000000).frac = 1000 ∧ (calcOf hw 1234567891 25000000).frac = 765 := by
  decide

/-- V-FRAC-4, V-FRAC-5 under `Truncate`; V-DIV-2 under `FRAC_CARRY`. -/
theorem test_frac_alternatives :
    (calcOf { hw with fracMode := .truncate } 2224990000 25000000).frac = 999
      ∧ (calcOf { hw with fracMode := .truncate } 2200012500 25000000).frac = 0
      ∧ (calcOf { hw with fracTie := .down } 2200012500 25000000).frac = 0
      ∧ (calcOf { hw with fracCarry := true } 68749999 25000000).int = 176
      ∧ (calcOf { hw with fracCarry := true } 68749999 25000000).frac = 0 := by decide

/-- V-PRE-1, V-PRE-2. -/
theorem test_prescaler_threshold :
    (calcOf hw 3600000000 25000000).p = false ∧ (calcOf hw 3600000001 25000000).p = true := by decide

/-- V-BSC-1 to V-BSC-6: `bsc`; V-BSC-7, V-BSC-10: the extreme `int`. -/
theorem test_bsc_and_int :
    bscDiv hw 67139 = 1 ∧ bscDiv hw 10000000 = 80 ∧ bscDiv hw 19200000 = 154 ∧ bscDiv hw 25000000 = 200
      ∧ bscDiv hw 26000000 = 208 ∧ bscDiv hw 29333333 = 235
      ∧ (calcOf hw 4400000000 67139).int = 65535 ∧ (calcOf hw 2200000000 29333333).int = 75 := by decide

/-- V-ENC-4, V-ENC-5, V-ENC-6. -/
theorem test_compose :
    compose hw .r4 { stateA.S with outen := false } { calcOf hw 35000000 25000000 with d := 6, bsc := 200 }
        = 0x00EC803C
      ∧ compose hw .r0 stateA.S { calcOf hw 35000000 25000000 with int := 65535, frac := 680 } = 0x7FFF9540
      ∧ compose hw .r1 { stateA.S with phase := 4095 } { calcOf hw 35000000 25000000 with p := true }
        = 0x0FFF9F41 := by decide

/-! ### Witnesses: states that meet the hypotheses of the obligations -/

theorem stateA_accepts : stateA.Accepts := ⟨rfl, rfl, rfl⟩

/-- State A is a command boundary of a good run. -/
theorem stateA_inv : Inv stateA where
  serIdle := rfl
  initialised _ :=
    { refMin := by decide
      refMax := by decide
      fout := by decide
      consistent := ⟨calcOf hw 100000000 25000000, by decide, by decide⟩
      idle := ⟨rfl, rfl⟩
      ce := rfl
      receiver := rfl }
  fresh h := by cases h

theorem stateA_addressesOk : AddressesOk stateA.reg := by
  intro i; cases i <;> rfl

/-- The settings commands, the status commands and `SET_FREQ` out of range (both sides) at State A. -/
theorem witness_accepts_and_out_of_range :
    stateA.Accepts ∧ (34999999 : Arg).toInt < 35000000 ∧ 4400000000 < (4400000001 : Arg).toInt :=
  ⟨stateA_accepts, by decide, by decide⟩

/-- StepExecutesTheNextIssuedItem: each clause. -/
theorem witness_step_clauses :
    (stateA.ser = .idle ∧ stateA.issue = [])
      ∧ ({ stateA with issue := [.command 0] }.ser = .idle
        ∧ { stateA with issue := [.command 0] }.issue = Issue.command 0 :: [])
      ∧ (serBegin 0x00580005 stateA).ser = .shifting 0x00580005 31 .setData := ⟨⟨rfl, rfl⟩, ⟨rfl, rfl⟩, rfl⟩

/-- DecodeAfterEncode. -/
theorem witness_wellFormed :
    Instr.WellFormed (.enableOutput 1) = true ∧ Instr.WellFormed .disableOutput = true
      ∧ Instr.WellFormed (.regAddr67 { rest := 0, addrLow := 1 }) = true := by decide

/-- InsertWritesExactlyItsField: the widest and the narrowest field, and each way out of the condition. -/
theorem witness_insert_condition :
    (3 ≤ 3 ∧ 3 ≤ 31 ∧ 31 ≤ 31 ∧ 2 ^ 29 - 1 < 2 ^ (31 - 3 + 1)) ∧ (3 ≤ 5 ∧ 5 ≤ 5 ∧ 5 ≤ 31 ∧ 1 < 2 ^ (5 - 5 + 1))
      ∧ ¬ (3 ≤ 2 ∧ 2 ≤ 5 ∧ 5 ≤ 31 ∧ 0 < 2 ^ (5 - 2 + 1)) ∧ ¬ (3 ≤ 5 ∧ 5 ≤ 5 ∧ 5 ≤ 31 ∧ 2 < 2 ^ (5 - 5 + 1)) := by
  decide

/-- ComposedWordsHoldTheirFields: the upper bounds. -/
theorem witness_compose_bounds :
    ∃ c : Calc, 0 ≤ c.int ∧ c.int < 65536 ∧ 0 ≤ c.frac ∧ c.frac < 4096 ∧ c.d < 8 ∧ 0 ≤ c.bsc ∧ c.bsc < 256 :=
  ⟨{ d := 7, vco := 0, pfd := 1, int := 65535, frac := 4095, p := true, bsc := 255 }, by decide⟩

/-- BaselineIsComposed. -/
theorem witness_baseline :
    ∃ (S : Settings) (c : Calc), S.pwr = 3 ∧ S.outen = true ∧ S.lownoise = true ∧ S.phase = 0
      ∧ c.int = 88 ∧ c.frac = 0 ∧ c.p = false ∧ c.d = 5 ∧ c.bsc = 200 :=
  ⟨stateA.S, { d := 5, vco := 2200000000, pfd := 25000000, int := 88, frac := 0, p := false, bsc := 200 },
    by decide⟩

/-- AlternativeFieldParameters. -/
theorem witness_alternative_parameters :
    ∃ P : Params, P.noiseBits = .datasheetPair ∧ P.powerField = .reg4 ∧ P.base = baseWords :=
  ⟨{ hw with noiseBits := .datasheetPair, powerField := .reg4 }, rfl, rfl, rfl⟩

/-! ### Witnesses: faults -/

/-- ReservedCodeRaisesBadOp, InitMustComeFirstAndOnce (both clauses), FaultFollowsTheCheckOrder. -/
theorem witness_unfaulted_states :
    (State.reset.ser = .idle ∧ State.reset.fault = .none ∧ State.reset.inited = false)
      ∧ (stateA.ser = .idle ∧ stateA.fault = .none ∧ stateA.inited = true)
      ∧ Instr.IsCommand (.setFreq 0) = true ∧ (∀ arg, Instr.setFreq 0 ≠ .init arg)
      ∧ (∀ code arg, Instr.setFreq 0 ≠ .reserved code arg) :=
  ⟨⟨rfl, rfl, rfl⟩, ⟨rfl, rfl, rfl⟩, rfl, nofun, nofun⟩

/-- FaultedBlockRefusesEveryCommand. -/
theorem witness_faulted :
    Instr.IsCommand (.init 25000000) = true ∧ { stateA with fault := .badOp }.ser = .idle
      ∧ { stateA with fault := .badOp }.fault ≠ .none := by decide

/-- InitProgramsOneHundredMegahertz, the clause of a reference out of bounds: both sides, at the boundary. -/
theorem witness_reference_out_of_bounds :
    State.reset.ser = .idle ∧ State.reset.fault = .none ∧ State.reset.inited = false
      ∧ (67138 : Arg).toInt < 67139 ∧ 29333333 < (29333334 : Arg).toInt := by decide

/-- FaultsArePrecise. -/
theorem witness_fault_taken :
    Instr.IsCommand (.reserved 0 0) = true ∧ stateA.fault = .none
      ∧ ∃ t, exec (.reserved 0 0) stateA = .next t ∧ t.fault ≠ .none := ⟨rfl, rfl, _, rfl, by decide⟩

/-- IntRangeInsideInitKeepsTheBaseline: parameters at which the calculation for 100 MHz faults. -/
theorem witness_int_range_in_init :
    State.reset.fault = .none ∧ State.reset.inited = false
      ∧ freqCalc { hw with intMax := 127 } 100000000 25000000 = .error .intRange := by decide

/-- InitedAndFirstFaultAreKept and ObservationsOnlyGrow: an initialised state, a faulted one, and an `INIT` that succeeds. -/
theorem witness_steps_keep :
    step stateA = .next stateA ∧ stateA.inited = true
      ∧ step { stateA with fault := .reinit } = .next { stateA with fault := .reinit }
      ∧ nextHas (step { State.reset with issue := [.command 0x000000000017D7840] })
          (fun t => t.inited = true) = true := ⟨rfl, rfl, rfl, by decide⟩

/-! ### Witnesses: initialization and frequency -/

/-- InitProgramsOneHundredMegahertz: an initialised state, and both ends of the bounds. -/
theorem witness_init :
    (stateA.ser = .idle ∧ stateA.fault = .none ∧ stateA.inited = true) ∧ State.reset.ser = .idle ∧ State.reset.fault = .none ∧ State.reset.inited = false
      ∧ 67139 ≤ (67139 : Arg).toInt ∧ (67139 : Arg).toInt ≤ 29333333
      ∧ 67139 ≤ (29333333 : Arg).toInt ∧ (29333333 : Arg).toInt ≤ 29333333 := by decide

/-- DividerExponentByTier: V-DIV-1 to V-DIV-14, both sides of every breakpoint. -/
theorem witness_divider_tiers :
    (InRange 35000000 ∧ dividerExp 35000000 = 6 ∧ dividerExp 68749999 = 6)
      ∧ dividerExp 68750000 = 5 ∧ dividerExp 137499999 = 5 ∧ dividerExp 137500000 = 4
      ∧ dividerExp 274999999 = 4 ∧ dividerExp 275000000 = 3 ∧ dividerExp 549999999 = 3
      ∧ dividerExp 550000000 = 2 ∧ dividerExp 1099999999 = 2 ∧ dividerExp 1100000000 = 1
      ∧ dividerExp 2199999999 = 1 ∧ dividerExp 2200000000 = 0
      ∧ (InRange 4400000000 ∧ dividerExp 4400000000 = 0) := by decide

/-- VcoStaysInItsBand. -/
theorem witness_vco : InRange 35000000 ∧ InRange 4400000000 ∧ (35000000 : Int) < 4400000000 := by decide

/-- FracRoundsAsItsModeSays: every mode, at the smallest and at a common divisor. -/
theorem witness_frac_modes :
    (0 : Int) < 1 ∧ (0 : Int) ≤ 0 ∧ (0 : Int) < 25000000 ∧ (0 : Int) ≤ 2320000000
      ∧ { hw with fracMode := .truncate }.fracMode = .truncate
      ∧ (hw.fracMode = .nearest ∧ hw.fracTie = .up ∧ hw.fracCarry = false)
      ∧ { hw with fracTie := .down }.fracTie = .down ∧ { hw with fracCarry := true }.fracCarry = true := by
  decide

/-- PrescalerAndIntLimits: every policy. -/
theorem witness_prescaler_policies :
    hw.prescaler = .threshold 3600000000 ∧ { hw with prescaler := .always89 }.prescaler = .always89
      ∧ { hw with prescaler := .always45 }.prescaler = .always45 := ⟨rfl, rfl, rfl⟩

/-- BandSelectDividerIsSmallest: the ends of each clause. -/
theorem witness_bsc :
    bscDiv hw 1 = 1 ∧ bscDiv hw 31875000 = 255 ∧ bscDiv hw 31875001 = 255 ∧ bscDiv hw 67139 = 1
      ∧ bscDiv hw 29333333 = 235 := by decide

/-- FreqCalcIsTheRecordOfItsRules: a calculation that answers, under each prescaler policy, and one that faults. -/
theorem witness_freqCalc_outcomes :
    freqCalc hw 915000000 25000000 = .ok (calcOf hw 915000000 25000000)
      ∧ freqCalc { hw with prescaler := .always89 } 915000000 25000000
        = .ok (calcOf { hw with prescaler := .always89 } 915000000 25000000)
      ∧ freqCalc { hw with prescaler := .always45 } 915000000 25000000
        = .ok (calcOf { hw with prescaler := .always45 } 915000000 25000000)
      ∧ freqCalc { hw with intMax := 127 } 100000000 25000000 = .error .intRange := by decide

/-- FrequencyCalculationNeverFaults: the corners of the ranges, and 25 MHz. -/
theorem witness_freqCalc :
    InRange 35000000 ∧ InRange 4400000000 ∧ (67139 : Int) ≤ 67139 ∧ (29333333 : Int) ≤ 29333333
      ∧ (67139 : Int) ≤ 25000000 ∧ (25000000 : Int) ≤ 29333333 := by decide

/-- SetFreqRewritesAllSixRegisters, the clause that programs; the ends of the range. -/
theorem witness_setFreq :
    stateA.Accepts ∧ 35000000 ≤ (35000000 : Arg).toInt ∧ (4400000000 : Arg).toInt ≤ 4400000000
      ∧ freqCalc hw (145000000 : Arg).toInt stateA.S.ref = .ok (calcOf hw 145000000 25000000) :=
  ⟨stateA_accepts, by decide, by decide, by decide⟩

/-- SetFreqRewritesAllSixRegisters, the clause of a calculation that faults: a state whose reference no `INIT` accepts. -/
theorem witness_setFreq_int_range :
    { stateA with S := { stateA.S with ref := 1 } }.Accepts ∧ 35000000 ≤ (145000000 : Arg).toInt
      ∧ (145000000 : Arg).toInt ≤ 4400000000
      ∧ freqCalc hw (145000000 : Arg).toInt 1 = .error .intRange :=
  ⟨⟨rfl, rfl, rfl⟩, by decide, by decide, by decide⟩

/-- SetThenGetReturnsTheFrequency: both clauses. -/
theorem witness_set_then_get :
    Inv stateA ∧ stateA.inited = true ∧ stateA.fault = .none ∧ InRange (35000000 : Arg).toInt
      ∧ ¬ InRange (34999999 : Arg).toInt := ⟨stateA_inv, rfl, rfl, by decide, by decide⟩

/-- SetFreqLeavesSettingsWords, CommandsSendProducibleWordsOnly, ObservationsOnlyGrow and
EventCountsPerCommand: a `SET_FREQ` that answers a next state, and RegistersHoldProducibleWords. -/
theorem witness_setFreq_next :
    Inv stateA ∧ stateA.inited = true ∧ Instr.IsCommand (.setFreq 145000000) = true
      ∧ nextHas (exec (.setFreq 145000000) stateA) (fun t => t.fault = .none) = true :=
  ⟨stateA_inv, rfl, rfl, by decide⟩

/-! ### Witnesses: settings and status -/

/-- ClampedOperandsBehaveAlike: the first value past each end. -/
theorem witness_clamps :
    3 < (4 : Arg).toInt ∧ (-1 : Arg).toInt < 0 ∧ 4095 < (4096 : Arg).toInt := by decide

/-- OutputEnableIsIdempotentAndRestores: bit 5 of R4 is clear in State A. -/
theorem witness_output_bit : stateA.Accepts ∧ stateA.reg.r4.getLsbD 5 = false :=
  ⟨stateA_accepts, by decide⟩

/-- IsLockedReportsTheSample: a supplied sample, and none. -/
theorem witness_samples :
    { stateA with ldIn := [true] }.Accepts ∧ { stateA with ldIn := [true] }.ldIn = true :: []
      ∧ stateA.Accepts ∧ stateA.ldIn = [] := ⟨⟨rfl, rfl, rfl⟩, rfl, stateA_accepts, rfl⟩

/-! ### Witnesses: serializer and receiver -/

/-- WordTransferEvents: the first and the last bit sent (V-SER-1: bits 31 and 0 of 0x00580005). -/
theorem witness_word_bits :
    0 < 32 ∧ 31 < 32 ∧ (wordEvents 0x00580005)[1]? = some { line := .data, level := false }
      ∧ (wordEvents 0x00580005)[94]? = some { line := .data, level := true } := by decide

/-- ShiftingHoldsNewCommands. -/
theorem witness_shifting : ∃ s : State, s.ser = .shifting 0x00580005 31 .setData :=
  ⟨serBegin 0x00580005 stateA, rfl⟩

/-- RegisterWordReachesItsLatch: a word of every register. -/
theorem witness_register_words :
    stateA.ser = .idle ∧ stateA.fault = .none ∧ stateA.bus.pins.clk = some false
      ∧ (encode (.reg0IntFrac (.ofWord 0x002E1900)) = .busWord 0x002E1900 ∧ addrOf 0x002E1900 = RegIx.r0.addr)
      ∧ (encode (.reg1PhaseModPrescaler (.ofWord 0x08001F41)) = .busWord 0x08001F41
        ∧ addrOf 0x08001F41 = RegIx.r1.addr)
      ∧ (encode (.reg2NoiseRefMux (.ofWord 0x58004E42)) = .busWord 0x58004E42
        ∧ addrOf 0x58004E42 = RegIx.r2.addr)
      ∧ (encode (.reg3PowerCp (.ofWord 0x000004A3)) = .busWord 0x000004A3 ∧ addrOf 0x000004A3 = RegIx.r3.addr)
      ∧ (encode (.reg4RfdivBscOuten (.ofWord 0x00CC801C)) = .busWord 0x00CC801C
        ∧ addrOf 0x00CC801C = RegIx.r4.addr)
      ∧ (encode (.reg5LdPin (.ofWord 0x00580005)) = .busWord 0x00580005 ∧ addrOf 0x00580005 = RegIx.r5.addr) := by
  decide

/-- AddressSixOrSevenLeavesLatchesOpen, and RegisterWordFrame with undriven lines. -/
theorem witness_open_latches :
    (stateA.ser = .idle ∧ stateA.fault = .none ∧ stateA.bus.pins.clk = some false)
      ∧ encode (.regAddr67 { rest := 0, addrLow := 1 }) = .busWord 0x00000007
      ∧ State.reset.ser = .idle ∧ State.reset.fault = .none := by decide

/-- OnlyInitDrivesChipEnable: an `INIT` that succeeds, and a command that is no `INIT`. -/
theorem witness_chip_enable :
    nextHas (exec (.init 25000000) State.reset) (fun t => t.fault = .none) = true
      ∧ nextHas (exec (.setPower 0) stateA) (fun t => t.fault = .none) = true
      ∧ ∀ arg, Instr.setPower 0 ≠ .init arg := ⟨by decide, by decide, nofun⟩

/-- EventCountsPerCommand: a command that faults, one that is refused, a setter, a rejected `SET_FREQ` and
a status command. -/
theorem witness_event_counts :
    nextHas (exec (.getFreq 0) State.reset) (fun t => t.fault = .notInit) = true
      ∧ nextHas (exec (.getFreq 0) { stateA with fault := .badOp }) (fun t => t.fault = .badOp) = true
      ∧ nextHas (exec .setLowSpur stateA) (fun t => t.fault = .none) = true
      ∧ nextHas (exec (.setFreq 34999999) stateA) (fun t => t.fault = .none) = true
      ∧ nextHas (exec (.getFreq 0) stateA) (fun t => t.fault = .none) = true := by decide

/-! ### Witness: a timed transfer -/

/-- A list of events `gap` apart, the first at time `t`. -/
def spaced (gap : Nat) : Nat → List PinEvent → List TimedEvent
  | _, [] => []
  | t, e :: es => { event := e, time := t } :: spaced gap (t + gap) es

theorem spaced_events (gap t : Nat) (es : List PinEvent) : (spaced gap t es).map TimedEvent.event = es := by
  induction es generalizing t with
  | nil => rfl
  | cons e es ih => simp [spaced, ih]

theorem le_of_mem_spaced {gap t : Nat} {es : List PinEvent} {f : TimedEvent} (h : f ∈ spaced gap t es) :
    t ≤ f.time := by
  induction es generalizing t with
  | nil => cases h
  | cons e es ih =>
    rcases List.mem_cons.1 h with rfl | h
    · exact Nat.le_refl _
    · exact Nat.le_trans (Nat.le_add_right _ _) (ih h)

theorem delayed_spaced {bound gap t : Nat} (hb : bound ≤ gap) (p : PinEvent → Bool) (e : PinEvent)
    (es : List PinEvent) : DelayedUntil bound p { event := e, time := t } (spaced gap (t + gap) es) := by
  unfold DelayedUntil
  split
  · rename_i f hf
    have := le_of_mem_spaced (List.mem_of_find?_eq_some hf)
    simp only; omega
  · trivial

/-- Every bound of R85 is met by events as far apart as all the bounds together. -/
theorem respectsTiming_spaced {gap : Nat} (h1 : Config.tSetup ≤ gap) (h2 : Config.tClkHigh ≤ gap)
    (h3 : Config.tClkLow ≤ gap) (h4 : Config.tLeHold ≤ gap) (t : Nat) (es : List PinEvent) :
    RespectsTiming (spaced gap t es) := by
  induction es generalizing t with
  | nil => trivial
  | cons e es ih =>
    refine ⟨fun f hf => ?_, ?_, ih _⟩
    · have := le_of_mem_spaced hf
      simp only; omega
    · unfold MeetsBound
      split
      · exact delayed_spaced h1 _ _ _
      · exact delayed_spaced h2 _ _ _
      · exact delayed_spaced h3 _ _ _
      · exact delayed_spaced h4 _ _ _
      · trivial
      · trivial

/-- WordTakesItsClockTimes: a word sent with events far enough apart, whatever the bounds are. -/
theorem witness_timed_word :
    ∃ (w : Word) (first last : TimedEvent) (mid : List TimedEvent),
      (first :: (mid ++ [last])).map TimedEvent.event = wordEvents w
        ∧ RespectsTiming (first :: (mid ++ [last])) := by
  obtain ⟨gap, h1, h2, h3, h4⟩ : ∃ gap, Config.tSetup ≤ gap ∧ Config.tClkHigh ≤ gap ∧ Config.tClkLow ≤ gap
      ∧ Config.tLeHold ≤ gap :=
    ⟨Config.tSetup + Config.tClkHigh + Config.tClkLow + Config.tLeHold, by omega, by omega, by omega, by omega⟩
  have he := spaced_events gap 0 (wordEvents 0x00580005)
  have hr := respectsTiming_spaced h1 h2 h3 h4 0 (wordEvents 0x00580005)
  have hlen : (spaced gap 0 (wordEvents 0x00580005)).length = 98 := by
    have := congrArg List.length he
    simpa using this
  generalize spaced gap 0 (wordEvents 0x00580005) = l at he hr hlen
  obtain ⟨first, rest, rfl⟩ : ∃ a b, l = a :: b := by
    cases l with
    | nil => cases hlen
    | cons a b => exact ⟨a, b, rfl⟩
  obtain ⟨mid, last, rfl⟩ : ∃ a b, rest = a ++ [b] := by
    rcases List.eq_nil_or_concat rest with rfl | ⟨a, b, rfl⟩
    · simp at hlen
    · exact ⟨a, b, by simp⟩
  exact ⟨_, first, last, mid, he, hr⟩

/-! ### Witnesses: invariants -/

/-- EveryCommandStepKeepsInvariant: State A with a command issued, which steps. -/
theorem witness_command_step :
    Inv { stateA with issue := [.command 0x60000000000000000] }
      ∧ { stateA with issue := [.command 0x60000000000000000] }.NextIsCommand
      ∧ nextHas (step { stateA with issue := [.command 0x60000000000000000] }) (fun t => t.respVal = 100000000)
        = true := by
  refine ⟨⟨rfl, fun _ => ?_, fun h => by cases h⟩, ?_, by decide⟩
  · have h := stateA_inv.initialised rfl
    exact ⟨h.refMin, h.refMax, h.fout, h.consistent, h.idle, h.ce, h.receiver⟩
  · intro w rest h; cases h

/-- AddressBitsSurviveEveryStep. -/
theorem witness_address_bits :
    (stateA.inited = true → AddressesOk stateA.reg) ∧ step stateA = .next stateA ∧ stateA.inited = true :=
  ⟨fun _ => stateA_addressesOk, rfl, rfl⟩

end Sys2Proof.Tests
end

section
/-! PROOFS. The frequency calculation at the parameters of this hardware: the ranges of its values and the
absence of faults (spec 41_frequency.md R62 to R72). -/

namespace Sys2Proof.Machine

/-- There are seven tiers (R62). -/
theorem dividerExp_le_six (hz : Int) : dividerExp hz ≤ 6 := by
  unfold dividerExp
  split_ifs <;> omega

/-- R72 item 3: the VCO band. -/
theorem vcoOf_mem_band {hz : Int} (h : InRange hz) : 2200000000 ≤ vcoOf hz ∧ vcoOf hz ≤ 4400000000 := by
  obtain ⟨hlo, hhi⟩ := h
  unfold fMin at hlo
  unfold fMax at hhi
  unfold vcoOf dividerExp
  split_ifs <;> omega

/-- R66, whatever the rounding mode and the tie rule. -/
theorem fracRound_mem (P : Params) {r pfd : Int} (hpfd : 0 < pfd) (hr : 0 ≤ r) (hlt : r < pfd) :
    0 ≤ fracRound P r pfd ∧ fracRound P r pfd ≤ 1000 := by
  have hq0 : 0 ≤ r * modulus / pfd := Int.ediv_nonneg (Int.mul_nonneg hr (by decide)) hpfd.le
  have hq1 : r * modulus / pfd + 1 ≤ 1000 :=
    Int.ediv_lt_of_lt_mul hpfd (by unfold modulus; omega)
  simp only [fracRound]
  split
  · omega
  · split_ifs
    · omega
    · omega
    · split <;> omega

theorem intFrac_hw (vco pfd : Int) : intFrac hw vco pfd = (vco / pfd, fracRound hw (vco % pfd) pfd) := rfl

/-- R69's clamp at this hardware's bounds. -/
theorem bscDiv_hw_mem (pfd : Int) : 1 ≤ bscDiv hw pfd ∧ bscDiv hw pfd ≤ 255 :=
  clamp_mem _ (by decide)

/-- The values of a calculation fit the fields they are composed into (R46, R47, R50). -/
structure Calc.FitsFields (c : Calc) : Prop where
  int : c.int.toNat < 2 ^ 16
  frac : c.frac.toNat ≤ 1000
  d : c.d ≤ 6
  bscMin : 1 ≤ c.bsc.toNat
  bscMax : c.bsc.toNat < 2 ^ 8

theorem fitsFields_of_freqCalc {hz ref : Int} {c : Calc} (href : 0 < ref) (h : freqCalc hw hz ref = .ok c) :
    c.FitsFields := by
  obtain ⟨rfl, -, hint⟩ := (freqCalc_ok_iff _ _ _ _).1 h
  have hfrac : 0 ≤ (calcOf hw hz ref).frac ∧ (calcOf hw hz ref).frac ≤ 1000 := by
    simpa only [calcOf, intFrac_hw, pfdOf_eq] using
      fracRound_mem hw href (Int.emod_nonneg (vcoOf hz) href.ne') (Int.emod_lt_of_pos _ href)
  have hbsc : 1 ≤ (calcOf hw hz ref).bsc ∧ (calcOf hw hz ref).bsc ≤ 255 := bscDiv_hw_mem _
  rw [hw_intMax] at hint
  exact ⟨by omega, by omega, dividerExp_le_six hz, by omega, by omega⟩

/-- R72 items 5 to 7: with frequency and reference in bounds the calculation passes the check of R68. -/
theorem freqCalc_hw_ok {hz ref : Int} (h : InRange hz) (hmin : hw.refMinHz ≤ ref) (hmax : ref ≤ hw.refMaxHz) :
    freqCalc hw hz ref = .ok (calcOf hw hz ref) := by
  rw [hw_refMinHz] at hmin
  rw [hw_refMaxHz] at hmax
  obtain ⟨hlo, hhi⟩ := vcoOf_mem_band h
  have hpos : 0 < ref := by omega
  have hint : (calcOf hw hz ref).int = vcoOf hz / ref := by simp only [calcOf, intFrac_hw, pfdOf_eq]
  have h75 : 75 ≤ vcoOf hz / ref := (Int.le_ediv_iff_mul_le hpos).2 (by omega)
  have h65535 : vcoOf hz / ref < 65536 := Int.ediv_lt_of_lt_mul hpos (by omega)
  have hmin75 : intMin hw (calcOf hw hz ref).p ≤ 75 := by
    unfold intMin
    split <;> simp
  exact (freqCalc_ok_iff _ _ _ _).2 ⟨rfl, by omega, by rw [hw_intMax]; omega⟩

/-- `INIT_FREQ` is in range (R58). -/
theorem initFreq_inRange : InRange initFreq := by decide

end Sys2Proof.Machine
end

section
/-! PROOFS. What the composed words decode to, field by field (spec 30_encoding.md R44 to R57). -/

namespace Sys2Proof

theorem slice_or {k : Nat} (a b : BitVec k) (lo n : Nat) : slice (a ||| b) lo n = slice a lo n ||| slice b lo n :=
  BitVec.extractLsb'_or

namespace Machine

/-- A field read where it was put. -/
theorem slice_field_self (v : Nat) {lo n : Nat} (h : lo + n ≤ 32) :
    slice (field v lo) lo n = BitVec.ofNat n v := by
  apply BitVec.eq_of_getLsbD_eq
  intro k hk
  rw [getLsbD_slice, getLsbD_field_mid (by omega) (by omega), BitVec.getLsbD_ofNat, Nat.add_sub_cancel_left]

/-- A slice below a field reads nothing of it. -/
theorem slice_field_below (v : Nat) {lo lo' n : Nat} (h : lo' + n ≤ lo) : slice (field v lo) lo' n = 0 := by
  apply BitVec.eq_of_getLsbD_eq
  intro k hk
  rw [getLsbD_slice, getLsbD_field_of_lt (by omega)]
  simp

/-- A slice above a field reads nothing of it. -/
theorem slice_field_above {v lo m lo' n : Nat} (hv : v < 2 ^ m) (h : lo + m ≤ lo') :
    slice (field v lo) lo' n = 0 := by
  apply BitVec.eq_of_getLsbD_eq
  intro k hk
  rw [getLsbD_slice, getLsbD_field_of_ge hv (by omega)]
  simp

theorem decodeBusWord_of_addr {w : Word} {i : RegIx} (h : addrOf w = i.addr) :
    decodeBusWord w = match i with
      | .r0 => .reg0IntFrac (.ofWord w)
      | .r1 => .reg1PhaseModPrescaler (.ofWord w)
      | .r2 => .reg2NoiseRefMux (.ofWord w)
      | .r3 => .reg3PowerCp (.ofWord w)
      | .r4 => .reg4RfdivBscOuten (.ofWord w)
      | .r5 => .reg5LdPin (.ofWord w) := by
  unfold addrOf at h
  cases i <;> rw [decodeBusWord, h] <;> rfl

theorem decodeBusWord_compose_r0 (S : Settings) {c : Calc} (hint : c.int.toNat < 2 ^ 16)
    (hfrac : c.frac.toNat < 2 ^ 12) :
    decodeBusWord (compose hw .r0 S c) = .reg0IntFrac
      { rsvd := 0, int := BitVec.ofNat 16 c.int.toNat, frac := BitVec.ofNat 12 c.frac.toNat } := by
  rw [decodeBusWord_of_addr (addrOf_compose .r0 S c)]
  simp (disch := omega) only [Reg0Word.ofWord, compose, staticWord, powerWord, hw_powerField, hw_base, RegFile.get,
    baseWords, slice_or, slice_field_self, slice_field_below, slice_field_above hint, slice_field_above hfrac]
  simp [slice]

theorem decodeBusWord_compose_r1 (S : Settings) (c : Calc) :
    decodeBusWord (compose hw .r1 S c) = .reg1PhaseModPrescaler
      { rsvd := 0, phaseAdj := 0, prescaler := BitVec.ofNat 1 (bit c.p),
        phase := BitVec.ofNat 12 S.phase.val, mod := 1000 } := by
  rw [decodeBusWord_of_addr (addrOf_compose .r1 S c)]
  simp (disch := omega) only [Reg1Word.ofWord, compose, staticWord, powerWord, hw_powerField, hw_base, RegFile.get,
    baseWords, slice_or, slice_field_self, slice_field_below, slice_field_above (bit_lt_two c.p),
    slice_field_above (m := 12) S.phase.isLt]
  simp [slice]

theorem decodeBusWord_compose_r2 (S : Settings) (c : Calc) :
    decodeBusWord (compose hw .r2 S c) = .reg2NoiseRefMux
      { rsvd := 0, lowSpur := BitVec.ofBool (!S.lownoise), lowNoise := BitVec.ofBool S.lownoise,
        muxout := 0b110, refDoubler := 0, refDiv2 := 0, rCounter := 1, doubleBuffer := 0,
        cpCurrent := 0b0111, ldf := 0, ldp := 0, pdPolarity := 1, powerDown := 0,
        cpThreeState := 0, counterReset := 0 } := by
  rw [decodeBusWord_of_addr (addrOf_compose .r2 S c)]
  simp only [compose, staticWord, powerWord, hw_powerField, hw_base]
  cases S.lownoise <;> rfl

theorem decodeBusWord_compose_r3 (S : Settings) (c : Calc) :
    decodeBusWord (compose hw .r3 S c) = .reg3PowerCp
      { rsvdHi := 0, bscMode := 0, abp := 0, chargeCancel := 0, rsvdMid := 0, csr := 0, rsvdLo := 0,
        clkDivMode := 0, clkDivHi := 37, power := BitVec.ofNat 2 S.pwr.val } := by
  rw [decodeBusWord_of_addr (addrOf_compose .r3 S c)]
  simp (disch := omega) only [Reg3Word.ofWord, compose, staticWord, powerWord, hw_powerField, hw_base, RegFile.get,
    baseWords, slice_or, slice_field_self, slice_field_above (m := 2) S.pwr.isLt]
  simp [slice]

theorem decodeBusWord_compose_r4 (S : Settings) {c : Calc} (hd : c.d < 2 ^ 3) (hbsc : c.bsc.toNat < 2 ^ 8) :
    decodeBusWord (compose hw .r4 S c) = .reg4RfdivBscOuten
      { rsvd := 0, fbSelect := 1, rfDivSel := BitVec.ofNat 3 c.d, bscDiv := BitVec.ofNat 8 c.bsc.toNat,
        vcoPowerDown := 0, mtld := 0, auxSelect := 0, auxEnable := 0, auxPower := 0,
        outDisable := BitVec.ofNat 1 (bit (!S.outen)), rfPower := 0b11 } := by
  rw [decodeBusWord_of_addr (addrOf_compose .r4 S c)]
  simp (disch := omega) only [Reg4Word.ofWord, compose, staticWord, powerWord, hw_powerField, hw_base, RegFile.get,
    baseWords, slice_or, slice_field_self, slice_field_below, slice_field_above hd,
    slice_field_above hbsc, slice_field_above (bit_lt_two (!S.outen))]
  simp [slice]

theorem decodeBusWord_compose_r5 (S : Settings) (c : Calc) :
    decodeBusWord (compose hw .r5 S c)
      = .reg5LdPin { rsvdHi := 0, ldPinMode := 0b01, rsvd21 := 0, rsvdOnes := 0b11, rsvdLo := 0 } := by
  rw [decodeBusWord_of_addr (addrOf_compose .r5 S c)]
  simp only [compose, staticWord, powerWord, hw_powerField, hw_base]
  rfl

end Machine
end Sys2Proof
end

section
/-! PROOFS. What `INIT` with a reference in bounds leaves (spec 40_initialize.md R58 to R60). -/

namespace Sys2Proof.Machine

/-- The settings after `INIT`: the defaults of R58 with 100 MHz programmed. -/
def initSettings (ref : Int) : Settings :=
  { ref := ref, fout := initFreq, pwr := 3, outen := true, phase := 0, lownoise := true }

/-- Everything `INIT` puts on the pins when it ends with the words `r`: the idle levels, the baseline, and `r`
(R58, R59). -/
def initEvents (P : Params) (r : RegFile) : List PinEvent :=
  pinsIdleEvents P ++ sentWords (fullUpdateWords P.baseline) ++ sentWords (fullUpdateWords r)

/-- The state after an `INIT` whose calculation answers `c` (R58). -/
def initDone (P : Params) (ref : Int) (c : Calc) (s : State) : State :=
  { s with
    reg := composeAll P (initSettings ref) c
    S := initSettings ref
    inited := true
    respOk := true
    respVal := 0
    bus := s.bus.driveAll (initEvents P (composeAll P (initSettings ref) c))
    events := s.events ++ initEvents P (composeAll P (initSettings ref) c)
    responses := s.responses ++ [{ ok := true, val := 0 }] }

/-- `INIT` whose calculation does not fault, at any parameters (R58). -/
theorem initBody_of_ok {P : Params} {ref : Int} {c : Calc} (hc : freqCalc P initFreq ref = .ok c) (s : State) :
    initBody P ref s = initDone P ref c s := by
  have href : (initPrepare P ref s).S.ref = ref := by rw [initPrepare_eq]
  have hbody := setFreqBody_of_ok (s := initPrepare P ref s) initFreq_inRange (href.symm ▸ hc)
  rw [initBody, hbody, initPrepare_eq]
  simp only [initFinish, respond, emitAll, Bus.driveAll_append, List.append_assoc, initDone, initEvents]
  rfl

theorem initBody_hw {ref : Int} (hmin : hw.refMinHz ≤ ref) (hmax : ref ≤ hw.refMaxHz) (s : State) :
    initBody hw ref s = initDone hw ref (calcOf hw initFreq ref) s :=
  initBody_of_ok (freqCalc_hw_ok initFreq_inRange hmin hmax) s

/-- Whatever the lines were before, `INIT` leaves them idle with `CE` asserted (R59, R82, R88). -/
theorem driveAll_initEvents_pins (r : RegFile) (b : Bus) :
    (b.driveAll (initEvents hw r)).pins
      = { le := some true, clk := some false, data := some (r.r0.getLsbD 0), ce := some true } := by
  rw [initEvents, Bus.driveAll_append, Bus.driveAll_append, driveAll_fullUpdate_pins, driveAll_fullUpdate_pins]
  rfl

/-- Whatever the receiver held before, `INIT` leaves in it the words it sent last (R87). -/
theorem driveAll_initEvents_dev {r : RegFile} (hr : AddressesOk r) (b : Bus) :
    (b.driveAll (initEvents hw r)).dev.reg = r ∧ (b.driveAll (initEvents hw r)).dev.sr = r.r0 := by
  rw [initEvents, Bus.driveAll_append, driveAll_fullUpdate_dev r _ ?_ hr]
  · exact ⟨rfl, rfl⟩
  · rw [Bus.driveAll_append, driveAll_fullUpdate_pins]

theorem initDone_pins (ref : Int) (c : Calc) (s : State) :
    (initDone hw ref c s).bus.pins
      = { le := some true, clk := some false, data := some ((initDone hw ref c s).reg.r0.getLsbD 0),
          ce := some true } := by
  rw [initDone, driveAll_initEvents_pins]

theorem initDone_dev (ref : Int) (c : Calc) (s : State) :
    (initDone hw ref c s).bus.dev.reg = (initDone hw ref c s).reg
      ∧ (initDone hw ref c s).bus.dev.sr = (initDone hw ref c s).reg.r0 := by
  simp only [initDone]
  exact driveAll_initEvents_dev (addressesOk_composeAll (initSettings ref) c) s.bus

end Sys2Proof.Machine
end

section
/-! PROOFS. What a step does to the flags and to the address bits (spec 10_state.md R13, R15, R16). -/

namespace Sys2Proof.Machine

@[simp] theorem serTick_reg (s : State) : (serTick s).reg = s.reg := by unfold serTick; split <;> rfl
@[simp] theorem serTick_inited (s : State) : (serTick s).inited = s.inited := by unfold serTick; split <;> rfl
@[simp] theorem serTick_fault (s : State) : (serTick s).fault = s.fault := by unfold serTick; split <;> rfl

/-- What an instruction does to `INITED` and `FAULT`: nothing, a first fault, or an `INIT` that succeeds. -/
theorem ExecEffect.flags {i : Instr} {s t : State} (h : ExecEffect i s t) :
    (t.inited = s.inited ∧ (t.fault = s.fault ∨ s.fault = .none))
      ∨ (s.fault = .none ∧ t.fault = .none ∧ t.inited = true ∧ ∃ arg, i = .init arg) := by
  cases h with
  | faulted code hf hc hcmd => exact .inl ⟨rfl, .inr hf⟩
  | initialised hf hi h1 h2 =>
    rw [initBody_hw h1 h2]
    exact .inr ⟨hf, hf, rfl, _, rfl⟩
  | sampled ha => exact .inl ⟨sampleLd_inited s, .inl (sampleLd_fault s)⟩
  | refused _ | rejected _ _ | programmed _ _ _ | power _ _ | output _ _ _ _ | phase _ _ | noise _ _ _ _
  | readback _ | word _ _ => exact .inl ⟨rfl, .inl rfl⟩

/-- What an instruction does to `REG`: nothing, one field insert, or all six words from `Compose` (R13). -/
theorem ExecEffect.reg {i : Instr} {s t : State} (h : ExecEffect i s t) :
    (t.inited = s.inited ∧ t.reg = s.reg)
      ∨ (t.inited = s.inited
        ∧ ∃ j hi lo v w, insertField (s.reg.get j) hi lo v = some w ∧ t.reg = s.reg.set j w)
      ∨ ∃ S c, t.reg = composeAll hw S c := by
  cases h with
  | initialised hf hi h1 h2 =>
    rw [initBody_hw h1 h2]
    exact .inr (.inr ⟨_, _, rfl⟩)
  | programmed ha h hc => exact .inr (.inr ⟨_, _, rfl⟩)
  | power ha h => exact .inr (.inl ⟨rfl, .r3, _, _, _, _, h, rfl⟩)
  | output en ha hi h => exact .inr (.inl ⟨rfl, .r4, _, _, _, _, h, rfl⟩)
  | phase ha h => exact .inr (.inl ⟨rfl, .r1, _, _, _, _, h, rfl⟩)
  | noise ln ha hi h => exact .inr (.inl ⟨rfl, .r2, _, _, _, _, h, rfl⟩)
  | sampled ha => exact .inl ⟨sampleLd_inited s, sampleLd_reg s⟩
  | refused _ | faulted _ _ _ _ | rejected _ _ | readback _ | word _ _ => exact .inl ⟨rfl, rfl⟩

/-- An instruction keeps the address bits of an initialised block, and an `INIT` writes them (R13, R45, R55). -/
theorem ExecEffect.addressesOk {i : Instr} {s t : State} (h : ExecEffect i s t)
    (hs : s.inited = true → AddressesOk s.reg) (ht : t.inited = true) : AddressesOk t.reg := by
  obtain ⟨hi, hreg⟩ | ⟨hi, j, _, _, _, w, hw', hreg⟩ | ⟨S, c, hreg⟩ := h.reg
  · rw [hreg]; exact hs (hi ▸ ht)
  · rw [hreg]; exact addressesOk_set (hs (hi ▸ ht)) (addrOf_insertField hw')
  · rw [hreg]; exact addressesOk_composeAll S c

/-- Settles O50: a step is a pin event or one instruction, and each instruction keeps the address bits. -/
theorem addressBitsSurviveEveryStep : Obligations.AddressBitsSurviveEveryStep := by
  intro s t hs h ht
  obtain ⟨-, rfl⟩ | ⟨-, -, rfl⟩ | ⟨item, rest, -, -, he⟩ := step_cases h
  · rw [serTick_inited] at ht
    rw [serTick_reg]
    exact hs ht
  · exact hs ht
  · exact he.addressesOk hs ht

/-- Settles O19: the flags change only by a first fault or by an `INIT` that succeeds. -/
theorem initedAndFirstFaultAreKept : Obligations.InitedAndFirstFaultAreKept := by
  intro s t h
  obtain ⟨-, rfl⟩ | ⟨-, -, rfl⟩ | ⟨item, rest, -, hq, he⟩ := step_cases h
  · simp +contextual
  · simp +contextual
  · obtain ⟨hi, hf⟩ | ⟨hf, htf, hti, arg, harg⟩ := he.flags
    · exact ⟨fun h1 => hi.trans h1, fun h1 => hf.resolve_right h1,
        fun h1 h2 => absurd (hi.symm.trans h2) (by simp [h1])⟩
    · exact ⟨fun _ => hti, fun h1 => absurd hf h1, fun _ _ => ⟨htf, item, rest, arg, hq, harg⟩⟩

end Sys2Proof.Machine
end

section
/-! PROOFS. The invariant of command boundaries (spec 10_state.md R18, R21, R22; 44_serializer.md R87). -/

namespace Sys2Proof.Machine

/-- Settles O48, field by field of the power-on state. -/
theorem resetSatisfiesInvariant : Obligations.ResetSatisfiesInvariant where
  serIdle := rfl
  initialised h := by cases h
  fresh _ := ⟨rfl, rfl, rfl, rfl, rfl, rfl⟩

/-! ### Instructions that leave registers, settings, bus and events -/

/-- The invariant speaks of these fields only. -/
theorem Inv.of_same {s t : State} (h : Inv s) (hser : t.ser = s.ser) (hi : t.inited = s.inited)
    (hreg : t.reg = s.reg) (hS : t.S = s.S) (hbus : t.bus = s.bus) (hev : t.events = s.events) : Inv t where
  serIdle := hser.trans h.serIdle
  initialised ht := by
    obtain ⟨h1, h2, h3, h4, h5, h6, h7⟩ := h.initialised (hi ▸ ht)
    constructor <;> simpa only [hreg, hS, hbus]
  fresh ht := by
    obtain ⟨h1, h2, h3, h4, h5, h6⟩ := h.fresh (hi ▸ ht)
    constructor <;> simpa only [hS, hbus, hev]

/-- For an initialised block the invariant is `Initialised`. -/
theorem Initialised.inv {s : State} (h : Initialised s) (hser : s.ser = .idle) (hi : s.inited = true) : Inv s :=
  ⟨hser, fun _ => h, fun h' => absurd (hi.symm.trans h') (by decide)⟩

/-! ### One register changed -/

/-- One word with a register's address, sent from the idle bus, leaves the bus idle and the word in its latch. -/
theorem driveAll_wordEvents_of_addr {b : Bus} {w : Word} {i : RegIx} (hclk : b.pins.clk = some false)
    (hw' : addrOf w = i.addr) :
    b.driveAll (wordEvents w)
      = { pins := { le := some true, clk := some false, data := some (w.getLsbD 0), ce := b.pins.ce }
          dev := { b.dev with sr := w, reg := b.dev.reg.set i w } } := by
  rw [driveAll_wordEvents w b hclk, Receiver.latch_of_addr _ hw']

/-- A field insert that agrees with the composition of the new settings keeps what holds after `INIT`: the setting
commands' case of R22. -/
theorem Initialised.insert_send {s : State} (h : Initialised s) {S' : Settings} {i : RegIx} {hi lo v : Nat}
    {w : Word} (hins : insertField (s.reg.get i) hi lo v = some w)
    (href : S'.ref = s.S.ref) (hfout : S'.fout = s.S.fout)
    (hsame : ∀ c, insertField (compose hw i s.S c) hi lo v = some (compose hw i S' c))
    (hrest : ∀ c j, j ≠ i → compose hw j S' c = compose hw j s.S c) :
    Initialised (respond true 0 (emitAll (wordEvents w) { s with S := S', reg := s.reg.set i w })) := by
  obtain ⟨c, hc, hreg⟩ := h.consistent
  have hget : ∀ j, s.reg.get j = compose hw j s.S c := fun j => by rw [hreg, composeAll, RegFile.get_ofFn]
  have hword : w = compose hw i S' c := by
    rw [hget, hsame] at hins
    exact (Option.some.inj hins).symm
  have hset : s.reg.set i w = composeAll hw S' c := by
    refine RegFile.ext_get fun j => ?_
    rw [composeAll, RegFile.get_ofFn]
    by_cases hj : j = i
    · rw [hj, RegFile.get_set_same, hword]
    · rw [RegFile.get_set_of_ne _ _ hj, hget, hrest c j hj]
  have hbus := driveAll_wordEvents_of_addr (w := w) (i := i) h.idle.clk (by rw [hword, addrOf_compose])
  exact {
    refMin := href ▸ h.refMin
    refMax := href ▸ h.refMax
    fout := hfout ▸ h.fout
    consistent := ⟨c, by simp only [respond_S, emitAll_S, hfout, href, hc], hset⟩
    idle := by constructor <;> simp [hbus]
    ce := by simp only [respond_bus, emitAll_bus, hbus, h.ce]
    receiver := by simp only [respond_bus, emitAll_bus, respond_reg, emitAll_reg, hbus, h.receiver] }

/-! ### All registers written -/

theorem initBody_initialised {ref : Int} (hmin : hw.refMinHz ≤ ref) (hmax : ref ≤ hw.refMaxHz) (s : State) :
    Initialised (initBody hw ref s) := by
  have hok := freqCalc_hw_ok initFreq_inRange hmin hmax
  rw [initBody_hw hmin hmax]
  exact {
    refMin := hmin
    refMax := hmax
    fout := initFreq_inRange
    consistent := ⟨_, hok, rfl⟩
    idle := by constructor <;> rw [initDone_pins]
    ce := by rw [initDone_pins, hw_ceOn]
    receiver := (initDone_dev ..).1 }

/-- `SET_FREQ` in range keeps what holds after `INIT` (R71). -/
theorem Initialised.programmed {s : State} (h : Initialised s) {hz : Int} {c : Calc} (hr : InRange hz)
    (hc : freqCalc hw hz s.S.ref = .ok c) :
    Initialised (respond true 0
      { emitAll (sentWords (fullUpdateWords (composeAll hw s.S c))) { s with reg := composeAll hw s.S c } with
        S := { s.S with fout := hz } }) := by
  have hpins := driveAll_fullUpdate_pins (composeAll hw s.S c) s.bus
  have hdev : (s.bus.driveAll (sentWords (fullUpdateWords (composeAll hw s.S c)))).dev.reg
      = composeAll hw s.S c := by
    rw [driveAll_fullUpdate_dev _ _ h.idle.clk (addressesOk_composeAll s.S c)]
  exact {
    refMin := h.refMin
    refMax := h.refMax
    fout := hr
    consistent := ⟨c, hc, rfl⟩
    idle := by constructor <;> simp only [respond_bus, emitAll_bus, hpins]
    ce := by simp only [respond_bus, emitAll_bus, hpins, h.ce]
    receiver := by simp only [respond_bus, emitAll_bus, respond_reg, emitAll_reg, hdev] }

/-! ### Commands and register words -/

/-- No command word reads as a register word (R39, R57). -/
theorem isCommand_decodeCommand (w : BitVec 68) : (decodeCommand w).IsCommand = true := by
  unfold decodeCommand
  dsimp only
  repeat' split
  all_goals rfl

theorem isCommand_of_encode_busWord {i : Instr} {w : Word} (h : encode i = .busWord w) : i.IsCommand = false := by
  cases i with
  | reg0IntFrac _ | reg1PhaseModPrescaler _ | reg2NoiseRefMux _ | reg3PowerCp _ | reg4RfdivBscOuten _ | reg5LdPin _
  | regAddr67 _ => rfl
  | init _ | setFreq _ | setPower _ | enableOutput _ | setPhase _ | setLowNoise _ | getFreq _ | isLocked _
  | reserved _ _ | disableOutput | setLowSpur => cases h

theorem State.NextIsCommand.isCommand {s : State} (h : s.NextIsCommand) {item : Issue} {rest : List Issue}
    (hq : s.issue = item :: rest) : (decode item).IsCommand = true := by
  cases item with
  | command w => exact isCommand_decodeCommand w
  | busWord w => exact absurd hq (h w rest)

/-- A command keeps the invariant of command boundaries. -/
theorem ExecEffect.inv {i : Instr} {s t : State} (h : ExecEffect i s t) (hcmd : i.IsCommand = true)
    (hs : Inv s) : Inv t := by
  cases h with
  | refused _ => exact hs
  | faulted _ _ _ _ | rejected _ _ | readback _ => exact hs.of_same rfl rfl rfl rfl rfl rfl
  | sampled ha =>
    exact hs.of_same (sampleLd_ser s) (sampleLd_inited s) (sampleLd_reg s) (sampleLd_S s) (sampleLd_bus s)
      (sampleLd_events s)
  | initialised hf hi h1 h2 =>
    refine (initBody_initialised h1 h2 s).inv ?_ ?_
    · rw [initBody_hw h1 h2]; exact hs.serIdle
    · rw [initBody_hw h1 h2]; rfl
  | programmed ha hr hc => exact ((hs.initialised ha.inited).programmed hr hc).inv hs.serIdle ha.inited
  | power ha hins =>
    refine Initialised.inv (.insert_send (i := .r3) (hs.initialised ha.inited) hins rfl rfl
      (fun c => insertField_compose_power _ c _) fun c j hj => ?_) hs.serIdle ha.inited
    exact compose_congr c (fun h => absurd h hj) (fun _ => rfl) (fun _ => rfl) (fun _ => rfl)
  | output en ha _ hins =>
    refine Initialised.inv (.insert_send (i := .r4) (hs.initialised ha.inited) hins rfl rfl
      (fun c => insertField_compose_outen _ c _) fun c j hj => ?_) hs.serIdle ha.inited
    exact compose_congr c (fun _ => rfl) (fun h => absurd h hj) (fun _ => rfl) (fun _ => rfl)
  | phase ha hins =>
    refine Initialised.inv (.insert_send (i := .r1) (hs.initialised ha.inited) hins rfl rfl
      (fun c => insertField_compose_phase _ c _) fun c j hj => ?_) hs.serIdle ha.inited
    exact compose_congr c (fun _ => rfl) (fun _ => rfl) (fun h => absurd h hj) (fun _ => rfl)
  | noise ln ha _ hins =>
    refine Initialised.inv (.insert_send (i := .r2) (hs.initialised ha.inited) hins rfl rfl
      (fun c => insertField_compose_noise _ c _) fun c j hj => ?_) hs.serIdle ha.inited
    exact compose_congr c (fun _ => rfl) (fun _ => rfl) (fun _ => rfl) (fun h => absurd h hj)
  | word _ henc => simp [isCommand_of_encode_busWord henc] at hcmd

/-- Settles O49: at a command boundary the serializer is `Idle`, so a step runs one command or waits. -/
theorem everyCommandStepKeepsInvariant : Obligations.EveryCommandStepKeepsInvariant := by
  intro s t hs hcmd h
  obtain ⟨hser, -⟩ | ⟨-, -, rfl⟩ | ⟨item, rest, -, hq, he⟩ := step_cases h
  · exact absurd hs.serIdle hser
  · exact hs
  · exact he.inv (hcmd.isCommand hq) (hs.of_same rfl rfl rfl rfl rfl rfl)

/-! ### Consequences of the invariant, and `INIT` -/

/-- A composition of fitting values holds only words the block may produce (R46 to R51, R56). -/
theorem blockProduces_compose (i : RegIx) (S : Settings) {c : Calc} (hc : c.FitsFields) :
    BlockProduces (decodeBusWord (compose hw i S c)) := by
  obtain ⟨hint, hfrac, hd, hbsc1, hbsc2⟩ := hc
  cases i with
  | r0 =>
    rw [decodeBusWord_compose_r0 S hint (by omega)]
    exact ⟨rfl, (Nat.mod_le _ _).trans hfrac⟩
  | r1 =>
    rw [decodeBusWord_compose_r1]
    exact ⟨rfl, rfl, rfl⟩
  | r2 =>
    rw [decodeBusWord_compose_r2]
    refine ⟨rfl, ?_, rfl, rfl, rfl, rfl, rfl, rfl, rfl, rfl, rfl, rfl, rfl, rfl⟩
    cases S.lownoise <;> decide
  | r3 =>
    rw [decodeBusWord_compose_r3]
    exact ⟨rfl, rfl, rfl, rfl, rfl, rfl, rfl, rfl, rfl⟩
  | r4 =>
    rw [decodeBusWord_compose_r4 S (by omega) hbsc2]
    refine ⟨rfl, rfl, (Nat.mod_le _ _).trans hd, ?_, rfl, rfl, rfl, rfl, rfl, rfl⟩
    rwa [BitVec.toNat_ofNat, Nat.mod_eq_of_lt hbsc2]
  | r5 =>
    rw [decodeBusWord_compose_r5]
    exact ⟨rfl, rfl, rfl, rfl, rfl⟩

/-- Settles O51: at a command boundary the registers are a composition of values that fit. -/
theorem registersHoldProducibleWords : Obligations.RegistersHoldProducibleWords := by
  intro s hs hi i
  have h := hs.initialised hi
  obtain ⟨c, hc, hreg⟩ := h.consistent
  have href : 0 < s.S.ref := lt_of_lt_of_le (by decide) h.refMin
  rw [hreg, composeAll, RegFile.get_ofFn]
  exact blockProduces_compose i s.S (fitsFields_of_freqCalc href hc)

theorem exec_init_of_ready {s : State} (arg : Arg) (hser : s.ser = .idle) (hf : s.fault = .none) :
    exec (.init arg) s = .next (initWith hw arg.toInt s) := by
  rw [exec_init, whenReady_of_noFault hser hf]

theorem initWith_of_inited (P : Params) (ref : Int) {s : State} (hi : s.inited = true) :
    initWith P ref s = raise .reinit s := by
  rw [initWith, if_pos hi]

theorem initWith_of_ref_out {P : Params} {ref : Int} {s : State} (hi : s.inited = false)
    (href : ref < P.refMinHz ∨ P.refMaxHz < ref) : initWith P ref s = raise .refRange s := by
  rw [initWith, if_neg (by simp [hi]), if_pos href]

theorem initWith_of_ref_in {P : Params} {ref : Int} {s : State} (hi : s.inited = false)
    (hmin : P.refMinHz ≤ ref) (hmax : ref ≤ P.refMaxHz) : initWith P ref s = initBody P ref s := by
  rw [initWith, if_neg (by simp [hi]), if_neg (by omega)]

/-- Settles O20: the three outcomes of `INIT`; in the last the state is the one of `initBody_hw`. -/
theorem initProgramsOneHundredMegahertz : Obligations.InitProgramsOneHundredMegahertz := by
  intro s arg hser hf
  rw [exec_init_of_ready arg hser hf]
  refine ⟨fun hi => ?_, fun hi href => ?_, fun hi hmin hmax => ?_⟩
  · rw [initWith_of_inited hw _ hi, raise_of_noFault hf]
  · rw [initWith_of_ref_out hi href, raise_of_noFault hf]
  · obtain ⟨hreg, hsr⟩ := initDone_dev arg.toInt (calcOf hw initFreq arg.toInt) s
    refine ⟨_, _, freqCalc_hw_ok initFreq_inRange hmin hmax, rfl, ?_⟩
    rw [initWith_of_ref_in hi hmin hmax, initBody_hw hmin hmax]
    refine ⟨rfl, rfl, rfl, hf, rfl, rfl, rfl, ?_, initDone_pins .., hreg, hsr, rfl, rfl, rfl, rfl⟩
    simp only [initDone, initEvents, ← List.append_assoc]
    rfl

end Sys2Proof.Machine
end

section
/-! PROOFS. What a step executes and what a command puts on the bus (spec 20_memory.md R26, R28, R33;
30_encoding.md R56). -/

namespace Sys2Proof.Machine

/-! ### The clauses of a step -/

theorem step_of_issued {s : State} {item : Issue} {rest : List Issue} (hser : s.ser = .idle)
    (hq : s.issue = item :: rest) : step s = exec (decode item) { s with issue := rest } := by
  simp only [step, hser, hq]

theorem step_of_nothing_issued {s : State} (hser : s.ser = .idle) (hq : s.issue = []) : step s = .next s := by
  simp only [step, hser, hq]

theorem step_of_shifting {s : State} {w : Word} {i : Fin 32} {b : BitStep} (hser : s.ser = .shifting w i b) :
    step s = .next (serTick s) := by
  simp only [step, hser]

/-- Settles O2, clause by clause of `step`. -/
theorem stepExecutesTheNextIssuedItem : Obligations.StepExecutesTheNextIssuedItem := fun _ =>
  ⟨fun _ _ => step_of_issued, step_of_nothing_issued, fun _ _ _ => step_of_shifting⟩

/-! ### The words of a command -/

/-- From `s` to `t` only the idle levels of `INIT`, or nothing, and then whole words with property `p` are sent. -/
def SendsOnly (p : Word → Prop) (s t : State) : Prop :=
  ∃ pre ws, t.events = s.events ++ pre ++ sentWords ws ∧ (pre = [] ∨ pre = pinsIdleEvents hw) ∧ ∀ w ∈ ws, p w

theorem SendsOnly.of_events_eq {p : Word → Prop} {s t : State} (h : t.events = s.events) : SendsOnly p s t :=
  ⟨[], [], by simp [h, sentWords], .inl rfl, by simp⟩

theorem SendsOnly.of_words {p : Word → Prop} {s t : State} {ws : List Word}
    (h : t.events = s.events ++ sentWords ws) (hws : ∀ w ∈ ws, p w) : SendsOnly p s t :=
  ⟨[], ws, by simp [h], .inl rfl, hws⟩

theorem SendsOnly.of_word {p : Word → Prop} {s t : State} {w : Word}
    (h : t.events = s.events ++ wordEvents w) (hw' : p w) : SendsOnly p s t :=
  .of_words (ws := [w]) (by simp [h, sentWords]) (by simpa using hw')

theorem SendsOnly.mono {p q : Word → Prop} {s t : State} (h : SendsOnly p s t) (hpq : ∀ w, p w → q w) :
    SendsOnly q s t := by
  obtain ⟨pre, ws, hev, hpre, hws⟩ := h
  exact ⟨pre, ws, hev, hpre, fun w hw' => hpq w (hws w hw')⟩

theorem exists_get_of_mem_fullUpdateWords {r : RegFile} {w : Word} (h : w ∈ fullUpdateWords r) :
    ∃ j, w = r.get j := by
  obtain ⟨j, -, hj⟩ := List.mem_map.1 (show w ∈ fullUpdate.map r.get from h)
  exact ⟨j, hj.symm⟩

/-- The words a command that ends in `t` may send: the registers as it leaves them, and `INIT`'s baseline. -/
def IsRegisterOrBaseline (t : State) (w : Word) : Prop := ∃ j, w = t.reg.get j ∨ w = baselineWords.get j

/-- `INIT` sends the baseline and then the registers it leaves (R58, R59). -/
theorem initDone_sends (ref : Int) (c : Calc) (s : State) :
    SendsOnly (IsRegisterOrBaseline (initDone hw ref c s)) s (initDone hw ref c s) := by
  refine ⟨pinsIdleEvents hw, fullUpdateWords baselineWords ++ fullUpdateWords (initDone hw ref c s).reg, ?_, .inr rfl,
    fun w hw' => ?_⟩
  · simp [initDone, initEvents, sentWords]
  · obtain h | h := List.mem_append.1 hw'
    · exact (exists_get_of_mem_fullUpdateWords h).imp fun _ => .inr
    · exact (exists_get_of_mem_fullUpdateWords h).imp fun _ => .inl

/-- A command sends nothing, or leaves the block initialised and has sent whole words: registers as it leaves
them, after the baseline for `INIT` (R28, R58, R71, R84). -/
theorem ExecEffect.sends {i : Instr} {s t : State} (h : ExecEffect i s t) (hcmd : i.IsCommand = true) :
    t.events = s.events ∨ (t.inited = true ∧ SendsOnly (IsRegisterOrBaseline t) s t) := by
  cases h with
  | refused _ | faulted _ _ _ _ | rejected _ _ | readback _ => exact .inl rfl
  | sampled ha => exact .inl (sampleLd_events s)
  | initialised hf hi h1 h2 =>
    rw [initBody_hw h1 h2]
    exact .inr ⟨rfl, initDone_sends ..⟩
  | programmed ha hr hc =>
    exact .inr ⟨ha.inited, .of_words rfl fun w hw' => (exists_get_of_mem_fullUpdateWords hw').imp fun _ => .inl⟩
  | power ha _ => exact .inr ⟨ha.inited, .of_word rfl ⟨.r3, .inl rfl⟩⟩
  | output _ ha _ _ => exact .inr ⟨ha.inited, .of_word rfl ⟨.r4, .inl rfl⟩⟩
  | phase ha _ => exact .inr ⟨ha.inited, .of_word rfl ⟨.r1, .inl rfl⟩⟩
  | noise _ ha _ _ => exact .inr ⟨ha.inited, .of_word rfl ⟨.r2, .inl rfl⟩⟩
  | word _ henc => simp [isCommand_of_encode_busWord henc] at hcmd

/-- The calculation the baseline stands for: INT 88 of a 25 MHz reference, in the tier of 100 MHz (R60). -/
def baselineCalc : Calc :=
  { d := 5, vco := 2200000000, pfd := 25000000, int := 88, frac := 0, p := false, bsc := 200 }

theorem fitsFields_baselineCalc : baselineCalc.FitsFields := by
  constructor <;> decide

/-- The baseline is a composition of the default settings (R60). -/
theorem composeAll_baselineCalc : composeAll hw (initSettings 25000000) baselineCalc = baselineWords := rfl

theorem blockProduces_baseline (j : RegIx) : BlockProduces (decodeBusWord (baselineWords.get j)) := by
  rw [← composeAll_baselineCalc, composeAll, RegFile.get_ofFn]
  exact blockProduces_compose j _ fitsFields_baselineCalc

/-- Settles O52: the state a command ends in meets the invariant too, so its registers hold producible words. -/
theorem commandsSendProducibleWordsOnly : Obligations.CommandsSendProducibleWordsOnly := by
  intro s t i hs hcmd h
  have he := (exec_effect h).2
  obtain hev | ⟨hti, hsent⟩ := he.sends hcmd
  · exact SendsOnly.of_events_eq hev
  · refine hsent.mono ?_
    rintro w ⟨j, rfl | rfl⟩
    · exact registersHoldProducibleWords t (he.inv hcmd hs) hti j
    · exact blockProduces_baseline j

end Sys2Proof.Machine
end

section
/-! PROOFS. Decoding and encoding undo each other (spec 30_encoding.md R39 to R51, R56, R57). -/

namespace Sys2Proof

/-! ### Slices -/

theorem slice_slice {k : Nat} (w : BitVec k) (lo : Nat) {n lo' m : Nat} (h : lo' + m ≤ n) :
    slice (slice w lo n) lo' m = slice w (lo + lo') m := by
  apply BitVec.eq_of_getLsbD_eq
  intro i hi
  simp only [getLsbD_slice, Nat.add_assoc, show lo' + i < n by omega, decide_true, Bool.true_and]

/-- `slice_append_slice` for numerals: the slices meet at `lo'`. -/
theorem slice_append_slice_of_eq {k : Nat} (w : BitVec k) {lo lo' n m : Nat} (h : lo' = lo + n) :
    slice w lo' m ++ slice w lo n = slice w lo (m + n) := h ▸ slice_append_slice w lo n m

/-! ### Command words -/

/-- A command word is its operation code and its operand (R39). -/
theorem commandWord_op_slice {w : BitVec 68} {op : BitVec 4} (h : (slice w 64 4).toNat = op.toNat) :
    commandWord op (slice w 0 64) = w := by
  rw [commandWord, ← BitVec.eq_of_toNat_eq h]
  exact (slice_append_slice w 0 64 4).trans (slice_full w)

/-- The codes 0x8 to 0xF are the reserved ones (R41). -/
theorem decodeCommand_of_reserved {w : BitVec 68} (h : 8 ≤ (slice w 64 4).toNat) :
    decodeCommand w = .reserved (slice w 64 3) (slice w 0 64) := by
  dsimp only [decodeCommand]
  split
  case h_9 => rfl
  all_goals omega

theorem decodeCommand_commandWord_reserved (code : BitVec 3) (arg : Arg) :
    decodeCommand (commandWord (0b1#1 ++ code) arg) = .reserved code arg := by
  have hop : ∀ code : BitVec 3, 8 ≤ (0b1#1 ++ code).toNat := by decide
  rw [decodeCommand_of_reserved (by rw [slice_commandWord_op]; exact hop code), slice_commandWord_arg]
  simp (disch := omega) only [commandWord, slice_append_hi, slice_append_lo, Nat.reduceSub, slice_full]

/-- The bit above a reserved code is 1 (R41). -/
theorem one_append_slice_of_eight_le {op : BitVec 4} (h : 8 ≤ op.toNat) : 0b1#1 ++ slice op 0 3 = op := by
  revert op; decide

theorem encode_decodeCommand (w : BitVec 68) :
    (decodeCommand w).WellFormed = true ∧ encode (decodeCommand w) = .command w := by
  dsimp only [decodeCommand]
  split
  case h_1 hop | h_2 hop | h_3 hop | h_5 hop | h_7 hop | h_8 hop =>
    exact ⟨rfl, congrArg Issue.command (commandWord_op_slice hop)⟩
  case h_4 hop | h_6 hop =>
    split
    next harg => exact ⟨rfl, congrArg Issue.command (harg ▸ commandWord_op_slice hop)⟩
    next harg => exact ⟨decide_eq_true harg, congrArg Issue.command (commandWord_op_slice hop)⟩
  case h_9 =>
    simp only [imp_false] at *
    have hcode := one_append_slice_of_eight_le (op := slice w 64 4) (by omega)
    rw [slice_slice w 64 (by omega)] at hcode
    exact ⟨rfl, congrArg Issue.command (commandWord_op_slice (congrArg BitVec.toNat hcode.symm))⟩

/-! ### Addresses -/

/-- A register word carries its address in its low three bits (R44). -/
theorem addrOf_append (hi : BitVec 29) (a : BitVec 3) : addrOf (hi ++ a) = a := by
  rw [addrOf, slice_append_lo _ _ _ _ (by omega), slice_full]

/-- The addresses of no register are 6 and 7, the ones whose upper bits are 0b11 (R26, R56). -/
theorem ofAddr_addrOf_eq_none_iff (w : Word) : RegIx.ofAddr (addrOf w) = none ↔ slice w 1 2 = 0b11#2 := by
  have h : ∀ a : BitVec 3, RegIx.ofAddr a = none ↔ slice a 1 2 = 0b11#2 := by decide
  rw [h, addrOf, slice_slice w 0 (by omega)]

theorem decodeBusWord_of_noAddr {w : Word} (h : RegIx.ofAddr (addrOf w) = none) :
    decodeBusWord w = .regAddr67 (.ofWord w) := by
  unfold decodeBusWord
  split
  case h_7 => rfl
  all_goals
    rename_i ha
    simp [RegIx.ofAddr, addrOf, ha] at h

theorem Reg67Word.ofAddr_addrOf_toWord (f : Reg67Word) : RegIx.ofAddr (addrOf f.toWord) = none := by
  rw [ofAddr_addrOf_eq_none_iff]
  simp (disch := omega) only [toWord, slice_append_hi, slice_append_lo, Nat.reduceSub, slice_full]

/-! ### The fields of a register word, put together again -/

section
variable {w : Word}

theorem Reg0Word.toWord_ofWord (h : addrOf w = 0b000#3) : (ofWord w).toWord = w := by
  rw [toWord, ← h]
  simp (disch := rfl) only [ofWord, addrOf, slice_append_slice_of_eq, slice_full]

theorem Reg1Word.toWord_ofWord (h : addrOf w = 0b001#3) : (ofWord w).toWord = w := by
  rw [toWord, ← h]
  simp (disch := rfl) only [ofWord, addrOf, slice_append_slice_of_eq, slice_full]

theorem Reg2Word.toWord_ofWord (h : addrOf w = 0b010#3) : (ofWord w).toWord = w := by
  rw [toWord, ← h]
  simp (disch := rfl) only [ofWord, addrOf, slice_append_slice_of_eq, slice_full]

theorem Reg3Word.toWord_ofWord (h : addrOf w = 0b011#3) : (ofWord w).toWord = w := by
  rw [toWord, ← h]
  simp (disch := rfl) only [ofWord, addrOf, slice_append_slice_of_eq, slice_full]

theorem Reg4Word.toWord_ofWord (h : addrOf w = 0b100#3) : (ofWord w).toWord = w := by
  rw [toWord, ← h]
  simp (disch := rfl) only [ofWord, addrOf, slice_append_slice_of_eq, slice_full]

theorem Reg5Word.toWord_ofWord (h : addrOf w = 0b101#3) : (ofWord w).toWord = w := by
  rw [toWord, ← h]
  simp (disch := rfl) only [ofWord, addrOf, slice_append_slice_of_eq, slice_full]

theorem Reg67Word.toWord_ofWord (h : RegIx.ofAddr (addrOf w) = none) : (ofWord w).toWord = w := by
  rw [toWord, ← (ofAddr_addrOf_eq_none_iff w).1 h]
  simp (disch := rfl) only [ofWord, slice_append_slice_of_eq, slice_full]

end

/-- A register word reads as the instruction it is the encoding of, by its address. -/
theorem encode_decodeBusWord (w : Word) :
    (decodeBusWord w).WellFormed = true ∧ encode (decodeBusWord w) = .busWord w := by
  cases h : RegIx.ofAddr (addrOf w) with
  | none =>
    rw [decodeBusWord_of_noAddr h]
    exact ⟨rfl, congrArg Issue.busWord (Reg67Word.toWord_ofWord h)⟩
  | some i =>
    have ha := RegIx.addr_of_ofAddr h
    rw [Machine.decodeBusWord_of_addr ha]
    cases i with
    | r0 => exact ⟨rfl, congrArg Issue.busWord (Reg0Word.toWord_ofWord ha)⟩
    | r1 => exact ⟨rfl, congrArg Issue.busWord (Reg1Word.toWord_ofWord ha)⟩
    | r2 => exact ⟨rfl, congrArg Issue.busWord (Reg2Word.toWord_ofWord ha)⟩
    | r3 => exact ⟨rfl, congrArg Issue.busWord (Reg3Word.toWord_ofWord ha)⟩
    | r4 => exact ⟨rfl, congrArg Issue.busWord (Reg4Word.toWord_ofWord ha)⟩
    | r5 => exact ⟨rfl, congrArg Issue.busWord (Reg5Word.toWord_ofWord ha)⟩

/-- Settles O7: the slices a word is read as are adjacent and cover it. -/
theorem encodeAfterDecode : Obligations.EncodeAfterDecode := by
  intro item
  cases item with
  | command w => exact encode_decodeCommand w
  | busWord w => exact encode_decodeBusWord w

/-! ### The fields of an encoded word, read back -/

theorem Reg0Word.ofWord_toWord (f : Reg0Word) : ofWord f.toWord = f := by
  simp (disch := omega) only [ofWord, toWord, slice_append_hi, slice_append_lo, Nat.reduceSub, slice_full]

theorem Reg1Word.ofWord_toWord (f : Reg1Word) : ofWord f.toWord = f := by
  simp (disch := omega) only [ofWord, toWord, slice_append_hi, slice_append_lo, Nat.reduceSub, slice_full]

theorem Reg2Word.ofWord_toWord (f : Reg2Word) : ofWord f.toWord = f := by
  simp (disch := omega) only [ofWord, toWord, slice_append_hi, slice_append_lo, Nat.reduceSub, slice_full]

theorem Reg3Word.ofWord_toWord (f : Reg3Word) : ofWord f.toWord = f := by
  simp (disch := omega) only [ofWord, toWord, slice_append_hi, slice_append_lo, Nat.reduceSub, slice_full]

theorem Reg4Word.ofWord_toWord (f : Reg4Word) : ofWord f.toWord = f := by
  simp (disch := omega) only [ofWord, toWord, slice_append_hi, slice_append_lo, Nat.reduceSub, slice_full]

theorem Reg5Word.ofWord_toWord (f : Reg5Word) : ofWord f.toWord = f := by
  simp (disch := omega) only [ofWord, toWord, slice_append_hi, slice_append_lo, Nat.reduceSub, slice_full]

theorem Reg67Word.ofWord_toWord (f : Reg67Word) : ofWord f.toWord = f := by
  simp (disch := omega) only [ofWord, toWord, slice_append_hi, slice_append_lo, Nat.reduceSub, slice_full]

/-- Settles O6: every field is read back from where the encoding puts it. -/
theorem decodeAfterEncode : Obligations.DecodeAfterEncode := by
  intro i h
  cases i with
  | init arg | setFreq arg | setPower arg | setPhase arg | getFreq arg | isLocked arg =>
    simp only [encode, decode, decodeCommand, slice_commandWord_op, slice_commandWord_arg]
    rfl
  | enableOutput arg | setLowNoise arg =>
    simp only [encode, decode, decodeCommand, slice_commandWord_op, slice_commandWord_arg]
    exact if_neg (of_decide_eq_true h)
  | disableOutput | setLowSpur => rfl
  | reserved code arg => exact decodeCommand_commandWord_reserved code arg
  | reg0IntFrac f =>
    exact (Machine.decodeBusWord_of_addr (i := .r0) (addrOf_append _ _)).trans (congrArg _ f.ofWord_toWord)
  | reg1PhaseModPrescaler f =>
    exact (Machine.decodeBusWord_of_addr (i := .r1) (addrOf_append _ _)).trans (congrArg _ f.ofWord_toWord)
  | reg2NoiseRefMux f =>
    exact (Machine.decodeBusWord_of_addr (i := .r2) (addrOf_append _ _)).trans (congrArg _ f.ofWord_toWord)
  | reg3PowerCp f =>
    exact (Machine.decodeBusWord_of_addr (i := .r3) (addrOf_append _ _)).trans (congrArg _ f.ofWord_toWord)
  | reg4RfdivBscOuten f =>
    exact (Machine.decodeBusWord_of_addr (i := .r4) (addrOf_append _ _)).trans (congrArg _ f.ofWord_toWord)
  | reg5LdPin f =>
    exact (Machine.decodeBusWord_of_addr (i := .r5) (addrOf_append _ _)).trans (congrArg _ f.ofWord_toWord)
  | regAddr67 f =>
    exact (decodeBusWord_of_noAddr f.ofAddr_addrOf_toWord).trans (congrArg _ f.ofWord_toWord)

end Sys2Proof
end

section
/-! PROOFS. The insert of a field, and the setting operation built on it (spec 30_encoding.md R45, 42_settings.md
R73 to R76, R84). -/

namespace Sys2Proof.Machine

/-- `Insert` has a value exactly under its condition (R45). -/
theorem insertField_eq_some_iff {w w' : Word} {hi lo v : Nat} :
    insertField w hi lo v = some w' ↔
      (3 ≤ lo ∧ lo ≤ hi ∧ hi ≤ 31 ∧ v < 2 ^ (hi - lo + 1)) ∧ (w &&& ~~~ fieldMask hi lo) ||| field v lo = w' := by
  rw [insertField, Option.ite_none_right_eq_some, Option.some_inj]

/-- The bits of an inserted word: the value's in the field, the old word's elsewhere (R45). -/
theorem getLsbD_insertField {w w' : Word} {hi lo v : Nat} (h : insertField w hi lo v = some w') (k : Nat) :
    w'.getLsbD k = if lo ≤ k ∧ k ≤ hi then v.testBit (k - lo) else w.getLsbD k := by
  obtain ⟨⟨-, hlo, hhi, hv⟩, rfl⟩ := insertField_eq_some_iff.1 h
  simp only [BitVec.getLsbD_or, BitVec.getLsbD_and, BitVec.getLsbD_not, getLsbD_fieldMask hlo]
  split
  next hk => simp [hk, getLsbD_field_mid hk.1 (show k < 32 by omega)]
  next hk =>
    have hfield : (field v lo).getLsbD k = false := by
      obtain h | h := Nat.lt_or_ge k lo
      · exact getLsbD_field_of_lt h
      · exact getLsbD_field_of_ge hv (by omega)
    simp only [hfield, hk, and_false, decide_false, Bool.not_false, Bool.and_true, Bool.or_false]
    simpa using BitVec.lt_of_getLsbD

/-- Settles O9, by the bits of the mask and of the shifted value. -/
theorem insertWritesExactlyItsField : Obligations.InsertWritesExactlyItsField := by
  refine fun w hi lo v => ⟨fun ⟨h3, hlo, hhi, hv⟩ => ?_, fun h => if_neg h⟩
  have h := insertField_eq_some (w := w) h3 hlo hhi hv
  exact ⟨_, h, fun k _ => getLsbD_insertField h k⟩

/-- What a setting command leaves, whatever field it inserts (R73 to R76, R84). -/
theorem settingDone_of_insertField {s : State} {S' : Settings} {i : RegIx} {hi lo v : Nat} {w : Word}
    (h : insertField (s.reg.get i) hi lo v = some w) :
    SettingDone s (respond true 0 (emitAll (wordEvents w) { s with S := S', reg := s.reg.set i w })) S' i hi lo v where
  settings := rfl
  field k := by
    simp only [respond_reg, emitAll_reg, RegFile.get_set_same]
    exact getLsbD_insertField h k
  others j hj := RegFile.get_set_of_ne _ _ hj
  events := by simp only [respond_events, respond_reg, emitAll_events, emitAll_reg, RegFile.get_set_same]
  pins := by
    simp only [respond_bus, respond_reg, emitAll_bus, emitAll_reg, RegFile.get_set_same, driveAll_wordEvents_pins]
  respOk := rfl
  respVal := rfl
  responses := rfl
  inited := rfl
  fault := rfl
  ser := rfl
  issue := rfl
  ldIn := rfl
  ldDraws := rfl

/-! ### The alternative fields -/

/-- Register 2 holds the static word and the noise bits, whatever `POWER_FIELD` is (R48, R53). -/
theorem compose_r2 (P : Params) (S : Settings) (c : Calc) :
    compose P .r2 S c = P.base.r2 ||| field (noiseValue P S.lownoise) 29 := by
  unfold compose staticWord powerWord
  cases P.powerField <;> simp [RegFile.get]

/-- The static word leaves bits [30:29] to the noise mode (R52, R56). -/
theorem slice_compose_r2_noise {P : Params} (hb : P.base = baseWords) (S : Settings) (c : Calc) :
    slice (compose P .r2 S c) 29 2 = BitVec.ofNat 2 (noiseValue P S.lownoise) := by
  rw [compose_r2, hb, slice_or, slice_field_self _ (by omega)]
  exact BitVec.zero_or

theorem noiseValue_datasheetPair {P : Params} (hn : P.noiseBits = .datasheetPair) (lownoise : Bool) :
    noiseValue P lownoise = if lownoise then 0b00 else 0b11 := by
  unfold noiseValue
  rw [hn]
  cases lownoise <;> rfl

section
variable {P : Params} (hp : P.powerField = .reg4)
include hp

/-- With the static `RF_POWER` taken out, bits [4:3] are the level's alone (R53, log 14). -/
theorem slice_compose_r4_power_of_reg4 (hb : P.base = baseWords) (S : Settings) (c : Calc) :
    slice (compose P .r4 S c) 3 2 = BitVec.ofNat 2 S.pwr.val := by
  have hstatic : slice (staticWord P .r4) 3 2 = 0 := by
    simp only [staticWord, hp, hb]
    decide
  simp (disch := omega) only [compose, powerWord, hp, slice_or, hstatic, slice_field_self, slice_field_below]
  simp

theorem compose_r3_of_reg4 (hb : P.base = baseWords) (S : Settings) (c : Calc) : compose P .r3 S c = 0x000004A3 := by
  simp [compose, staticWord, powerWord, hp, hb, RegFile.get, baseWords]

theorem setPowerWith_of_reg4 (level : Int) (s : State) :
    setPowerWith P level s
      = insertAndSend .r4 4 3 (clampPower level).val { s with S := { s.S with pwr := clampPower level } } := by
  simp only [setPowerWith, hp]

end

/-- Settles O12: with the power field in register 4, `SET_POWER` is the setting operation on that register. -/
theorem alternativeFieldParameters : Obligations.AlternativeFieldParameters := by
  refine fun P S c => ⟨fun hn hb => ?_,
    fun hp hb => ⟨slice_compose_r4_power_of_reg4 hp hb S c, compose_r3_of_reg4 hp hb S c⟩, fun hp s level => ?_⟩
  · rw [slice_compose_r2_noise hb, noiseValue_datasheetPair hn]
    cases S.lownoise <;> rfl
  · obtain ⟨w, hins⟩ := insertField_power_defined (s.reg.get .r4) (clampPower level)
    exact ⟨_, (setPowerWith_of_reg4 hp level s).trans (insertAndSend_eq hins), settingDone_of_insertField hins⟩

end Sys2Proof.Machine
end

section
/-! PROOFS. Words of the encoding tables: the composed ones field by field, a few written out, the ones with no
register's address, and the codes and spellings of R41 and R43 (spec 30_encoding.md). -/

namespace Sys2Proof.Machine

theorem ofNat_bit (b : Bool) : BitVec.ofNat 1 (bit b) = BitVec.ofBool b := by
  cases b <;> rfl

theorem ofInt_eq_ofNat_toNat (n : Nat) {x : Int} (h : 0 ≤ x) : BitVec.ofInt n x = BitVec.ofNat n x.toNat := by
  rw [← BitVec.ofInt_natCast, Int.toNat_of_nonneg h]

/-- Register 5 has static fields only (R51). -/
theorem compose_r5 (S : Settings) (c : Calc) : compose hw .r5 S c = 0x00580005 := by
  simp [compose, staticWord, powerWord, RegFile.get, baseWords]

/-- Settles O10: the reading of each composed word, with the bounds of the calculation as bounds of its fields. -/
theorem composedWordsHoldTheirFields : Obligations.ComposedWordsHoldTheirFields := by
  intro S c hint0 hint hfrac0 hfrac hd hbsc0 hbsc
  rw [ofInt_eq_ofNat_toNat 16 hint0, ofInt_eq_ofNat_toNat 12 hfrac0, ofInt_eq_ofNat_toNat 8 hbsc0]
  simp only [← ofNat_bit c.p, ← ofNat_bit (!S.outen)]
  exact ⟨decodeBusWord_compose_r0 S (by omega) (by omega), decodeBusWord_compose_r1 S c, decodeBusWord_compose_r2 S c,
    decodeBusWord_compose_r3 S c, decodeBusWord_compose_r4 S hd (by omega), compose_r5 S c⟩

/-- A register word of any format, handed to a block that is ready, is transferred (R80). -/
theorem exec_busWord_of_ready {i : Instr} {w : Word} {s : State} (h : encode i = .busWord w) (hser : s.ser = .idle)
    (hf : s.fault = .none) : exec i s = .next (writeWord w s) := by
  rw [exec_busWord h, sendWord, whenReady_of_noFault hser hf]

theorem getLsbD_zero_toWord_reg67 (f : Reg67Word) : f.toWord.getLsbD 0 = f.addrLow.getLsbD 0 :=
  BitVec.getLsbD_append.trans (if_pos Nat.zero_lt_one)

/-- Settles O42: the receiver latches a word that names none of its registers. -/
theorem addressSixOrSevenLeavesLatchesOpen : Obligations.AddressSixOrSevenLeavesLatchesOpen := by
  intro f s hser hf hclk
  refine ⟨.ofFn (Config.badAddressLatch s.bus.dev.opens), ?_⟩
  rw [exec_busWord_of_ready (w := f.toWord) rfl hser hf, writeWord, emitAll, driveAll_wordEvents _ _ hclk,
    Receiver.latch_of_noAddr _ f.ofAddr_addrOf_toWord, getLsbD_zero_toWord_reg67]
  rfl

/-- Settles O5, by evaluating the decoder on the six words. -/
theorem writtenOutWordsDecode : Obligations.WrittenOutWordsDecode := by
  unfold Obligations.WrittenOutWordsDecode
  decide

/-- Settles O8: `false` is the operand 0. -/
theorem pseudoInstructionsExpand : Obligations.PseudoInstructionsExpand := by
  have hfalse : argBool 0 = false := rfl
  refine ⟨fun s => ?_, fun s => ?_, rfl, rfl, rfl, rfl, rfl⟩
  · rw [exec_disableOutput, exec_enableOutput, hfalse]
  · rw [exec_setLowSpur, exec_setLowNoise, hfalse]

/-- Settles O13: a reserved code has no check but the first. -/
theorem reservedCodeRaisesBadOp : Obligations.ReservedCodeRaisesBadOp := by
  intro s code arg hser hf
  rw [exec_reserved, whenReady_of_noFault hser hf, raise_of_noFault hf]

end Sys2Proof.Machine
end

section
/-! PROOFS. The baseline words of `INIT` as a composition (spec 40_initialize.md R60). -/

namespace Sys2Proof.Machine

/-- Of a calculation, a composed word holds nothing but the fields of R46, R47 and R50: not `vco`, not `pfd`. -/
theorem compose_congr_calc {c c' : Calc} (P : Params) (i : RegIx) (S : Settings) (hint : c.int = c'.int)
    (hfrac : c.frac = c'.frac) (hp : c.p = c'.p) (hd : c.d = c'.d) (hbsc : c.bsc = c'.bsc) :
    compose P i S c = compose P i S c' := by
  simp only [compose, hint, hfrac, hp, hd, hbsc]

/-- Settles O11: a composition does not depend on the fields the statement leaves free, and at the defaults with
`baselineCalc` it is the baseline. -/
theorem baselineIsComposed : Obligations.BaselineIsComposed := by
  intro S c hpwr houten hlownoise hphase hint hfrac hp hd hbsc
  rw [← composeAll_baselineCalc]
  refine congrArg RegFile.ofFn (funext fun i => ?_)
  calc compose hw i S c
      = compose hw i S baselineCalc := compose_congr_calc hw i S hint hfrac hp hd hbsc
    _ = compose hw i (initSettings 25000000) baselineCalc :=
        compose_congr baselineCalc (fun _ => hpwr) (fun _ => houten) (fun _ => hphase) (fun _ => hlownoise)

end Sys2Proof.Machine
end

section
/-! PROOFS. The frequency calculation, rule by rule: tiers, VCO band, rounding, prescaler, band-select divider, and
the record they make (spec 41_frequency.md R62 to R70). -/

namespace Sys2Proof.Machine

/-! ### Divider exponent and VCO band (R62, R63) -/

/-- Settles O21, tier by tier of the definition. -/
theorem dividerExponentByTier : Obligations.DividerExponentByTier := by
  intro hz _
  unfold dividerExp
  split_ifs <;> simp <;> omega

/-- The bounds of R61 as numbers. -/
theorem inRange_iff {hz : Int} : InRange hz ↔ 35000000 ≤ hz ∧ hz ≤ 4400000000 := Iff.rfl

/-- R72 item 4: the band is one octave wide, so a larger exponent at a higher frequency would leave it. -/
theorem dividerExp_le_of_lt {f1 f2 : Int} (h1 : InRange f1) (h2 : InRange f2) (h : f1 < f2) :
    dividerExp f2 ≤ dividerExp f1 := by
  by_contra hlt
  have hpow : (2 : Int) ^ (dividerExp f1 + 1) ≤ 2 ^ dividerExp f2 :=
    pow_le_pow_right₀ (by decide) (Nat.lt_of_not_le hlt)
  have hpos : 0 ≤ f2 := by have := (inRange_iff.1 h2).1; omega
  have hlow := (vcoOf_mem_band h1).1
  have hhigh := (vcoOf_mem_band h2).2
  have hoctave : 2 * vcoOf f1 < vcoOf f2 := calc
    2 * vcoOf f1 = f1 * 2 ^ (dividerExp f1 + 1) := by rw [vcoOf]; ring
    _ < f2 * 2 ^ (dividerExp f1 + 1) := mul_lt_mul_of_pos_right h (by positivity)
    _ ≤ f2 * 2 ^ dividerExp f2 := mul_le_mul_of_nonneg_left hpow hpos
  omega

/-- Settles O22 with `vcoOf_mem_band`, from which the second clause follows. -/
theorem vcoStaysInItsBand : Obligations.VcoStaysInItsBand :=
  ⟨fun _ h => ⟨rfl, vcoOf_mem_band h⟩, fun _ _ => dividerExp_le_of_lt⟩

/-! ### Rounding (R66) -/

section
variable {P : Params} {r pfd : Int}

theorem fracRound_of_truncate (h : P.fracMode = .truncate) : fracRound P r pfd = r * 1000 / pfd := by
  simp only [fracRound, h, modulus]

/-- `Nearest` with ties up: the quotient, or one more from half a divisor on. -/
theorem fracRound_of_nearest_up (h : P.fracMode = .nearest) (ht : P.fracTie = .up) :
    fracRound P r pfd = if pfd ≤ 2 * (r * 1000 % pfd) then r * 1000 / pfd + 1 else r * 1000 / pfd := by
  simp only [fracRound, h, ht, modulus]
  split_ifs <;> omega

/-- `Nearest` with ties down: the quotient, or one more above half a divisor. -/
theorem fracRound_of_nearest_down (h : P.fracMode = .nearest) (ht : P.fracTie = .down) :
    fracRound P r pfd = if pfd < 2 * (r * 1000 % pfd) then r * 1000 / pfd + 1 else r * 1000 / pfd := by
  simp only [fracRound, h, ht, modulus]
  split_ifs <;> omega

end

theorem intFrac_of_no_carry {P : Params} (h : P.fracCarry = false) (vco pfd : Int) :
    intFrac P vco pfd = (vco / pfd, fracRound P (vco % pfd) pfd) := by
  simp [intFrac, h]

theorem intFrac_of_carry {P : Params} (h : P.fracCarry = true) (vco pfd : Int) :
    intFrac P vco pfd
      = if fracRound P (vco % pfd) pfd = 1000 then (vco / pfd + 1, 0)
        else (vco / pfd, fracRound P (vco % pfd) pfd) := by
  simp [intFrac, h, modulus]

/-- Settles O23: in each mode the bounds are those of the division of `r * 1000` by `pfd` with remainder. -/
theorem fracRoundsAsItsModeSays : Obligations.FracRoundsAsItsModeSays := by
  intro P vco pfd hpfd _ r f
  have hdiv := Int.mul_ediv_add_emod (r * 1000) pfd
  have he0 := Int.emod_nonneg (r * 1000) hpfd.ne'
  have he1 := Int.emod_lt_of_pos (r * 1000) hpfd
  obtain ⟨hf0, hf1⟩ := fracRound_mem P hpfd (Int.emod_nonneg vco hpfd.ne') (Int.emod_lt_of_pos vco hpfd)
  refine ⟨fun hm => ?_, fun hm ht => ?_, fun hm ht => ?_, hf0, hf1, (intFrac_of_no_carry · vco pfd),
    (intFrac_of_carry · vco pfd)⟩
  · rw [show f = _ from fracRound_of_truncate hm]
    constructor <;> linarith
  · rw [show f = _ from fracRound_of_nearest_up hm ht]
    split_ifs <;> constructor <;> linarith
  · rw [show f = _ from fracRound_of_nearest_down hm ht]
    split_ifs <;> constructor <;> linarith

/-! ### Prescaler (R67) -/

section
variable {P : Params} (vco : Int)

theorem prescalerBit_of_threshold {t : Int} (h : P.prescaler = .threshold t) :
    prescalerBit P vco = true ↔ t < vco := by
  simp [prescalerBit, h]

theorem prescalerBit_of_always89 (h : P.prescaler = .always89) : prescalerBit P vco = true := by
  simp [prescalerBit, h]

theorem prescalerBit_of_always45 (h : P.prescaler = .always45) : prescalerBit P vco = false := by
  simp [prescalerBit, h]

end

/-! ### Band-select divider (R69) -/

/-- Settles O25: the least divider by `ceilDiv_spec`, then the clamp. -/
theorem bandSelectDividerIsSmallest : Obligations.BandSelectDividerIsSmallest := by
  intro pfd hpfd
  have hbsc : bscDiv hw pfd = min (max (ceilDiv pfd 125000) 1) 255 := rfl
  obtain ⟨hreach, hleast⟩ := ceilDiv_spec pfd (b := 125000) (by decide)
  omega

/-! ### The record (R68, R70) -/

/-- Settles O24: `freqCalc_error_iff` states R68's condition, and `p` is R67's bit. -/
theorem prescalerAndIntLimits : Obligations.PrescalerAndIntLimits := fun P hz ref =>
  ⟨fun _ => prescalerBit_of_threshold (vcoOf hz), prescalerBit_of_always89 (vcoOf hz),
    prescalerBit_of_always45 (vcoOf hz), (freqCalc_error_iff P hz ref .intRange).trans (and_iff_right rfl)⟩

/-- Settles O53: each field of `calcOf` is by its own rule, and `freqCalc_ok_iff` gives the limits of R68. -/
theorem freqCalcIsTheRecordOfItsRules : Obligations.FreqCalcIsTheRecordOfItsRules := by
  refine fun P hz ref => ⟨fun c hc => ?_, fun code h => ((freqCalc_error_iff P hz ref code).1 h).1⟩
  obtain ⟨rfl, hmin, hmax⟩ := (freqCalc_ok_iff P hz ref c).1 hc
  have hpfd := pfdOf_eq ref
  exact ⟨rfl, rfl, hpfd, congrArg (intFrac P (vcoOf hz)) hpfd, fun _ => prescalerBit_of_threshold (vcoOf hz),
    prescalerBit_of_always89 (vcoOf hz), prescalerBit_of_always45 (vcoOf hz), congrArg (bscDiv P) hpfd, hmin, hmax⟩

/-- The fields of the record at the parameters of this hardware. -/
theorem calcOf_hw (hz ref : Int) :
    calcOf hw hz ref
      = { d := dividerExp hz, vco := vcoOf hz, pfd := ref, int := vcoOf hz / ref,
          frac := fracRound hw (vcoOf hz % ref) ref, p := prescalerBit hw (vcoOf hz), bsc := bscDiv hw ref } := by
  simp only [calcOf, pfdOf_eq, intFrac_hw]

/-- Settles O26: `freqCalc_hw_ok` gives the record, `freqCalc_ok_iff` the limits of R68, and the VCO band the bounds of
`int`. -/
theorem frequencyCalculationNeverFaults : Obligations.FrequencyCalculationNeverFaults := by
  intro hz ref h hmin hmax
  have hok := freqCalc_hw_ok h hmin hmax
  rw [calcOf_hw] at hok
  obtain ⟨-, hlim, hmaxInt⟩ := (freqCalc_ok_iff _ _ _ _).1 hok
  have hpos : 0 < ref := by omega
  obtain ⟨hvcoMin, hvcoMax⟩ := vcoOf_mem_band h
  have hlow : 2200000000 / ref ≤ vcoOf hz / ref := Int.ediv_le_ediv hpos hvcoMin
  have hhigh : vcoOf hz / ref ≤ 4400000000 / ref := Int.ediv_le_ediv hpos hvcoMax
  obtain ⟨hfracMin, hfracMax⟩ :=
    fracRound_mem hw hpos (Int.emod_nonneg (vcoOf hz) hpos.ne') (Int.emod_lt_of_pos _ hpos)
  obtain ⟨hbscMin, hbscMax⟩ := bscDiv_hw_mem ref
  refine ⟨_, hok, rfl, rfl, rfl, rfl, hlow, hhigh, hlim, hmaxInt, ?_, rfl,
    prescalerBit_of_threshold _ hw_prescaler, rfl, hfracMin, hfracMax, dividerExp_le_six hz, hbscMin, hbscMax⟩
  rintro rfl
  exact ⟨hlow, hhigh⟩

end Sys2Proof.Machine
end

section
/-! PROOFS. `SET_FREQ` on an initialised block, and the read-back of `GET_FREQ` (spec 41_frequency.md R71, R72;
43_status.md R77). -/

namespace Sys2Proof.Machine

/-- The state after a `SET_FREQ` whose calculation answers `c` (R71). -/
def setFreqDone (P : Params) (hz : Int) (c : Calc) (s : State) : State :=
  respond true 0
    { emitAll (sentWords (fullUpdateWords (composeAll P s.S c))) { s with reg := composeAll P s.S c } with
      S := { s.S with fout := hz } }

/-- `SET_FREQ` leaves the lines as register 0, sent last, does (R82). -/
theorem setFreqDone_pins (P : Params) (hz : Int) (c : Calc) (s : State) :
    (setFreqDone P hz c s).bus.pins
      = { le := some true, clk := some false, data := some ((setFreqDone P hz c s).reg.r0.getLsbD 0),
          ce := s.bus.pins.ce } := by
  rw [setFreqDone, respond_bus, emitAll_bus, driveAll_fullUpdate_pins]
  rfl

section
variable {s : State} {arg : Arg}

theorem exec_setFreq_of_not_inRange (ha : s.Accepts) (h : ¬ InRange arg.toInt) :
    exec (.setFreq arg) s = .next (respond false 0 s) := by
  rw [exec_setFreq, whenInited_of_accepts ha, setFreqWith, setFreqBody_of_not_inRange h]

theorem exec_setFreq_of_error {code : FaultCode} (ha : s.Accepts) (h : InRange arg.toInt)
    (hc : freqCalc hw arg.toInt s.S.ref = .error code) :
    exec (.setFreq arg) s = .next { s with fault := code } := by
  rw [exec_setFreq, whenInited_of_accepts ha, setFreqWith, setFreqBody_of_error h hc]
  exact congrArg _ (raise_of_noFault ha.noFault)

theorem exec_setFreq_of_ok {c : Calc} (ha : s.Accepts) (h : InRange arg.toInt)
    (hc : freqCalc hw arg.toInt s.S.ref = .ok c) :
    exec (.setFreq arg) s = .next (setFreqDone hw arg.toInt c s) := by
  rw [exec_setFreq, whenInited_of_accepts ha, setFreqWith, setFreqBody_of_ok h hc]
  rfl

theorem exec_getFreq_of_accepts (ha : s.Accepts) :
    exec (.getFreq arg) s = .next (respond true (freqValue s.S.fout) s) := by
  rw [exec_getFreq, whenInited_of_accepts ha]

end

/-- Settles O27: the three outcomes of the body; in the last the state is `setFreqDone`. -/
theorem setFreqRewritesAllSixRegisters : Obligations.SetFreqRewritesAllSixRegisters := by
  refine fun s arg ha => ⟨fun h => ?_, fun hlo hhi => ⟨fun code hc => ?_, fun c hc => ?_⟩⟩
  · have hout : ¬ InRange arg.toInt := by rw [inRange_iff]; omega
    exact exec_setFreq_of_not_inRange ha hout
  · obtain rfl : code = .intRange := ((freqCalc_error_iff _ _ _ _).1 hc).1
    exact ⟨rfl, exec_setFreq_of_error ha ⟨hlo, hhi⟩ hc⟩
  · exact ⟨_, exec_setFreq_of_ok ha ⟨hlo, hhi⟩ hc, rfl, RegFile.get_ofFn _, rfl, setFreqDone_pins ..,
      rfl, rfl, rfl, rfl, rfl, rfl, rfl, rfl, rfl⟩

/-- A frequency in range is its own 64-bit two's complement (R17, R77). -/
theorem toInt_freqValue {hz : Int} (h : InRange hz) : (freqValue hz).toInt = hz := by
  obtain ⟨hlo, hhi⟩ := inRange_iff.1 h
  exact BitVec.toInt_ofInt_eq_self (by decide) (by omega) (by omega)

/-- Settles O28: the calculation cannot fault under the invariant, and either outcome leaves a block that accepts
`GET_FREQ`. -/
theorem setThenGetReturnsTheFrequency : Obligations.SetThenGetReturnsTheFrequency := by
  intro s f any hs hi hf
  have ha : s.Accepts := ⟨hs.serIdle, hf, hi⟩
  have hinit := hs.initialised hi
  refine ⟨fun h => ?_, fun h => ?_⟩
  · have hset := exec_setFreq_of_ok ha h (freqCalc_hw_ok h hinit.refMin hinit.refMax)
    exact ⟨_, _, hset, rfl, hf, exec_getFreq_of_accepts ⟨hs.serIdle, hf, hi⟩, rfl, toInt_freqValue h⟩
  · exact ⟨_, _, exec_setFreq_of_not_inRange ha h, rfl, rfl, rfl, rfl, rfl,
      exec_getFreq_of_accepts ⟨hs.serIdle, hf, hi⟩, toInt_freqValue hinit.fout⟩

/-- Registers 2, 3 and 5 hold nothing of the calculation (R48, R49, R51). -/
theorem compose_settings_words {i : RegIx} (hi : i = .r2 ∨ i = .r3 ∨ i = .r5) (P : Params) (S : Settings)
    (c c' : Calc) : compose P i S c = compose P i S c' := by
  obtain rfl | rfl | rfl := hi <;> simp only [compose]

/-- Settles O29: of the effects a `SET_FREQ` can have only the programming one writes `REG`, and the words before it
are a composition of the same settings by the invariant. -/
theorem setFreqLeavesSettingsWords : Obligations.SetFreqLeavesSettingsWords := by
  intro s t arg hs hi h
  cases (exec_effect h).2 with
  | @programmed _ _ c' =>
    obtain ⟨c, -, hreg⟩ := (hs.initialised hi).consistent
    rw [hreg]
    exact ⟨compose_settings_words (.inl rfl) hw s.S c' c, compose_settings_words (.inr (.inl rfl)) hw s.S c' c,
      compose_settings_words (.inr (.inr rfl)) hw s.S c' c⟩
  | refused _ | faulted _ _ _ _ | rejected _ _ => exact ⟨rfl, rfl, rfl⟩
  | output _ _ hset _ => simp at hset
  | noise _ _ hset _ => simp at hset
  | word _ henc => cases henc

end Sys2Proof.Machine
end

section
/-! PROOFS. The setting commands on an initialised block: power, output enable, phase and noise mode (spec
42_settings.md R73 to R76). -/

namespace Sys2Proof.Machine

/-! ### The field a setting command writes -/

/-- Register file `r'` is `r` with `v` in the field `[hi:lo]` of register `i`, and no other bit changed. -/
def FieldWritten (r r' : RegFile) (i : RegIx) (hi lo v : Nat) : Prop :=
  ∀ j k, (r'.get j).getLsbD k = if j = i ∧ lo ≤ k ∧ k ≤ hi then v.testBit (k - lo) else (r.get j).getLsbD k

/-- The later of two writes of one field is the one that counts. -/
theorem FieldWritten.trans {r r' r'' : RegFile} {i : RegIx} {hi lo v v' : Nat}
    (h : FieldWritten r r' i hi lo v) (h' : FieldWritten r' r'' i hi lo v') : FieldWritten r r'' i hi lo v' := by
  intro j k
  rw [h' j k]
  split
  next => rfl
  next hk => rw [h j k, if_neg hk]

/-- Writing what the field already holds changes nothing. -/
theorem FieldWritten.eq_of_held {r r' : RegFile} {i : RegIx} {hi lo v : Nat} (h : FieldWritten r r' i hi lo v)
    (hr : ∀ k, lo ≤ k → k ≤ hi → (r.get i).getLsbD k = v.testBit (k - lo)) : r' = r := by
  refine RegFile.ext_get fun j => BitVec.eq_of_getLsbD_eq fun k _ => ?_
  rw [h j k]
  split
  next hk =>
    obtain ⟨rfl, hlo, hhi⟩ := hk
    exact (hr k hlo hhi).symm
  next => rfl

section
variable {s t u : State} {S' S'' : Settings} {i : RegIx} {hi lo v : Nat}

theorem SettingDone.fieldWritten (h : SettingDone s t S' i hi lo v) : FieldWritten s.reg t.reg i hi lo v := by
  intro j k
  by_cases hj : j = i
  · subst hj
    simpa using h.field k
  · rw [h.others j hj, if_neg fun hk => hj hk.1]

/-- The next command finds the block as ready as this one did. -/
theorem SettingDone.accepts (h : SettingDone s t S' i hi lo v) (ha : s.Accepts) : t.Accepts :=
  ⟨h.ser.trans ha.serIdle, h.fault.trans ha.noFault, h.inited.trans ha.inited⟩

/-- The same field written twice with one value leaves `REG` as the first write did. -/
theorem SettingDone.reg_eq_of_repeated (h : SettingDone s t S' i hi lo v) (h' : SettingDone t u S'' i hi lo v) :
    u.reg = t.reg :=
  h'.fieldWritten.eq_of_held fun k hlo hhi => by rw [h.field k, if_pos ⟨hlo, hhi⟩]

end

/-! ### The four setting operations -/

section
variable {s : State}

theorem exec_setPower_done (ha : s.Accepts) (arg : Arg) :
    ∃ t, exec (.setPower arg) s = .next t
      ∧ SettingDone s t { s.S with pwr := clampPower arg.toInt } .r3 4 3 (clampPower arg.toInt).val := by
  obtain ⟨w, hins⟩ := insertField_power_defined s.reg.r3 (clampPower arg.toInt)
  rw [exec_setPower, whenInited_of_accepts ha]
  exact ⟨_, setPowerWith_hw _ hins, settingDone_of_insertField (i := .r3) hins⟩

theorem exec_setPhase_done (ha : s.Accepts) (arg : Arg) :
    ∃ t, exec (.setPhase arg) s = .next t
      ∧ SettingDone s t { s.S with phase := clampPhase arg.toInt } .r1 26 15 (clampPhase arg.toInt).val := by
  obtain ⟨w, hins⟩ := insertField_phase_defined s.reg.r1 (clampPhase arg.toInt)
  rw [exec_setPhase, whenInited_of_accepts ha]
  exact ⟨_, phaseTo_eq _ hins, settingDone_of_insertField (i := .r1) hins⟩

theorem outputEnableTo_done (en : Bool) (s : State) :
    ∃ t, outputEnableTo en s = .next t ∧ SettingDone s t { s.S with outen := en } .r4 5 5 (bit (!en)) := by
  obtain ⟨w, hins⟩ := insertField_outen_defined s.reg.r4 (!en)
  exact ⟨_, outputEnableTo_eq en hins, settingDone_of_insertField (i := .r4) hins⟩

theorem noiseModeTo_done (ln : Bool) (s : State) :
    ∃ t, noiseModeTo hw ln s = .next t
      ∧ SettingDone s t { s.S with lownoise := ln } .r2 30 29 (noiseValue hw ln) := by
  obtain ⟨w, hins⟩ := insertField_noise_defined s.reg.r2 ln
  exact ⟨_, noiseModeTo_eq ln hins, settingDone_of_insertField (i := .r2) hins⟩

/-- Bit 29 is the low-noise bit and bit 30 its opposite (R52, R76). -/
theorem SettingDone.noise_bits {t : State} {S' : Settings} {ln : Bool}
    (h : SettingDone s t S' .r2 30 29 (noiseValue hw ln)) :
    t.reg.r2.getLsbD 29 = ln ∧ t.reg.r2.getLsbD 30 = !ln := by
  have h29 : t.reg.r2.getLsbD 29 = (noiseValue hw ln).testBit 0 := h.field 29
  have h30 : t.reg.r2.getLsbD 30 = (noiseValue hw ln).testBit 1 := h.field 30
  rw [h29, h30]
  cases ln <;> decide

/-! ### Boolean operands (R42) -/

theorem argBool_eq_bne (arg : Arg) : argBool arg = (arg != 0) := by
  rw [argBool, bne, Bool.beq_eq_decide_eq, decide_not]

/-- Set means disabled (R54, R74). -/
theorem bit_not_argBool (arg : Arg) : bit (!argBool arg) = if arg = 0 then 1 else 0 := by
  by_cases h : arg = 0 <;> simp [argBool, bit, h]

theorem noiseValue_hw (ln : Bool) : noiseValue hw ln = if ln then 0b01 else 0b10 := by
  cases ln <;> rfl

theorem noiseValue_argBool (arg : Arg) : noiseValue hw (argBool arg) = if arg = 0 then 0b10 else 0b01 := by
  by_cases h : arg = 0 <;> simp [argBool, noiseValue_hw, h]

theorem exec_enableOutput_done (ha : s.Accepts) (arg : Arg) :
    ∃ t, exec (.enableOutput arg) s = .next t
      ∧ SettingDone s t { s.S with outen := arg != 0 } .r4 5 5 (if arg = 0 then 1 else 0) := by
  rw [exec_enableOutput, whenInited_of_accepts ha, ← argBool_eq_bne, ← bit_not_argBool]
  exact outputEnableTo_done (argBool arg) s

end

/-! ### The obligations -/

/-- Settles O30. -/
theorem setPowerWritesClampedLevel : Obligations.SetPowerWritesClampedLevel := by
  intro s arg ha
  obtain ⟨t, he, hd⟩ := exec_setPower_done ha arg
  exact ⟨t, clampPower arg.toInt, he, clampPower_val _, hd⟩

/-- Settles O31: the command and its pseudo-instruction are one operation (R43). -/
theorem enableOutputWritesInvertedBit : Obligations.EnableOutputWritesInvertedBit := by
  refine fun s ha => ⟨exec_enableOutput_done ha, ?_⟩
  rw [exec_disableOutput, whenInited_of_accepts ha]
  exact outputEnableTo_done false s

/-- Settles O32. -/
theorem setPhaseWritesClampedPhase : Obligations.SetPhaseWritesClampedPhase := by
  intro s arg ha
  obtain ⟨t, he, hd⟩ := exec_setPhase_done ha arg
  exact ⟨t, clampPhase arg.toInt, he, clampPhase_val _, hd⟩

/-- Settles O33: the command and its pseudo-instruction are one operation (R43), and its two bits are opposite. -/
theorem setLowNoiseSetsExactlyOneBit : Obligations.SetLowNoiseSetsExactlyOneBit := by
  refine fun s ha => ⟨fun arg => ?_, ?_⟩
  · obtain ⟨t, he, hd⟩ := noiseModeTo_done (argBool arg) s
    obtain ⟨h29, h30⟩ := hd.noise_bits
    rw [exec_setLowNoise, whenInited_of_accepts ha]
    rw [noiseValue_argBool] at hd
    rw [argBool_eq_bne] at hd h29 h30
    exact ⟨t, he, hd, h29, h30.trans (Bool.not_not _)⟩
  · obtain ⟨t, he, hd⟩ := noiseModeTo_done false s
    rw [exec_setLowSpur, whenInited_of_accepts ha]
    exact ⟨t, he, hd, hd.noise_bits⟩

/-- Settles O35: two writes of `R4[5]` are the second alone, and writing the value it holds is no change. -/
theorem outputEnableIsIdempotentAndRestores : Obligations.OutputEnableIsIdempotentAndRestores := by
  refine fun s arg ha => ⟨?_, ?_⟩
  · obtain ⟨t, he, hd⟩ := exec_enableOutput_done ha 0
    obtain ⟨u, he', hd'⟩ := exec_enableOutput_done (hd.accepts ha) 1
    refine ⟨t, u, he, he', hd'.field 5, fun h5 => ?_⟩
    refine (hd.fieldWritten.trans hd'.fieldWritten).eq_of_held fun k hlo hhi => ?_
    obtain rfl : k = 5 := by omega
    exact h5
  · obtain ⟨t, he, hd⟩ := exec_enableOutput_done ha arg
    obtain ⟨u, he', hd'⟩ := exec_enableOutput_done (hd.accepts ha) arg
    exact ⟨t, u, he, he', hd.reg_eq_of_repeated hd', by rw [hd'.settings, hd.settings]⟩

/-! ### Operands beyond the clamps -/

theorem clamp_of_hi_le {x hi : Int} (lo : Int) (h : hi ≤ x) : clamp x lo hi = hi := by
  unfold clamp
  omega

theorem clamp_of_le_lo {x lo hi : Int} (hlo : lo ≤ hi) (h : x ≤ lo) : clamp x lo hi = lo := by
  unfold clamp
  omega

section
variable {a b : Arg}

/-- `SET_POWER` reads its operand through the clamp alone (R73). -/
theorem exec_setPower_congr (s : State) (h : clamp a.toInt 0 3 = clamp b.toInt 0 3) :
    exec (.setPower a) s = exec (.setPower b) s := by
  simp only [exec_setPower, setPowerWith, clampPower, Nat.cast_ofNat, h]

/-- `SET_PHASE` reads its operand through the clamp alone (R75). -/
theorem exec_setPhase_congr (s : State) (h : clamp a.toInt 0 4095 = clamp b.toInt 0 4095) :
    exec (.setPhase a) s = exec (.setPhase b) s := by
  simp only [exec_setPhase, phaseTo, clampPhase, Nat.cast_ofNat, h]

end

/-- Settles O34: past an end the clamp answers that end. -/
theorem clampedOperandsBehaveAlike : Obligations.ClampedOperandsBehaveAlike := by
  refine fun s arg => ⟨fun h => exec_setPower_congr s ?_, fun h => exec_setPower_congr s ?_,
    fun h => exec_setPhase_congr s ?_, fun h => exec_setPhase_congr s ?_⟩
  · rw [clamp_of_hi_le 0 h.le, clamp_of_hi_le 0 (by decide)]
  · rw [clamp_of_le_lo (by decide) h.le, clamp_of_le_lo (by decide) (by decide)]
  · rw [clamp_of_hi_le 0 h.le, clamp_of_hi_le 0 (by decide)]
  · rw [clamp_of_le_lo (by decide) h.le, clamp_of_le_lo (by decide) (by decide)]

end Sys2Proof.Machine
end

section
/-! PROOFS. The status commands on an initialised block: `GET_FREQ` and `IS_LOCKED` (spec 43_status.md R77, R78). -/

namespace Sys2Proof.Machine

/-- Settles O36: `respond` writes the three response fields alone, and `freqValue` is the two's complement (R17). -/
theorem getFreqReadsProgrammedFrequency : Obligations.GetFreqReadsProgrammedFrequency :=
  fun _ _ ha => exec_getFreq_of_accepts ha

theorem boolValue_eq_ite (b : Bool) : boolValue b = if b then 1 else 0 := by
  cases b <;> rfl

section
variable {s : State}

/-- A supplied sample is consumed (R19). -/
theorem sampleLd_of_supplied {l : Bool} {rest : List Bool} (h : s.ldIn = l :: rest) :
    sampleLd s = (l, { s with ldIn := rest }) := by
  simp only [sampleLd, h]

/-- With no sample supplied the level is the free value of this draw (assumption log 3). -/
theorem sampleLd_of_free (h : s.ldIn = []) :
    sampleLd s = (Config.ldIn s.ldDraws, { s with ldDraws := s.ldDraws + 1 }) := by
  simp only [sampleLd, h]

/-- `IS_LOCKED` answers the sample, in the state the sampling leaves (R78). -/
theorem exec_isLocked_of_sample {t : State} {l : Bool} (ha : s.Accepts) (arg : Arg) (h : sampleLd s = (l, t)) :
    exec (.isLocked arg) s = .next (respond true (if l then 1 else 0) t) := by
  rw [exec_isLocked, whenInited_of_accepts ha, h, boolValue_eq_ite]

end

/-- Settles O37: one answer for both sources of the sample. -/
theorem isLockedReportsTheSample : Obligations.IsLockedReportsTheSample :=
  fun _ arg ha => ⟨fun _ _ h => exec_isLocked_of_sample ha arg (sampleLd_of_supplied h),
    fun h => exec_isLocked_of_sample ha arg (sampleLd_of_free h)⟩

end Sys2Proof.Machine
end

section
/-! PROOFS. The transfer of one word: its 98 events, the serializer that emits them one at a time, and the register
words sent on their own (spec 44_serializer.md R80, R82, R87; 10_state.md R21). -/

namespace Sys2Proof.Machine

/-! ### The events of a word -/

/-- The three events of the `k`-th bit sent of the low `n` bits of a word: bit `n - 1 - k`, then a clock pulse (R80). -/
theorem getElem?_bitEvents (w : Word) {n k : Nat} (h : k < n) :
    (bitEvents w n)[3 * k]? = some { line := .data, level := w.getLsbD (n - 1 - k) }
      ∧ (bitEvents w n)[3 * k + 1]? = some { line := .clk, level := true }
      ∧ (bitEvents w n)[3 * k + 2]? = some { line := .clk, level := false } := by
  induction n generalizing k with
  | zero => omega
  | succ n ih =>
    cases k with
    | zero => exact ⟨rfl, rfl, rfl⟩
    | succ k =>
      rw [show n + 1 - 1 - (k + 1) = n - 1 - k by omega]
      exact ih (by omega)

/-- Between `LE` low and `LE` high a transfer is the events of all 32 bits. -/
theorem getElem?_wordEvents (w : Word) {j : Nat} (h : j < 96) : (wordEvents w)[j + 1]? = (bitEvents w 32)[j]? := by
  rw [wordEvents, List.getElem?_cons_succ, List.getElem?_append_left (by rw [length_bitEvents]; exact h)]

/-- `LE` high comes after the three events of each bit. -/
theorem getElem?_wordEvents_last (w : Word) : (wordEvents w)[97]? = some { line := .le, level := true } := by
  rw [wordEvents, List.getElem?_cons_succ, List.getElem?_append_right (by rw [length_bitEvents]), length_bitEvents]
  rfl

/-- Settles O38: the events of a bit stand where `getElem?_bitEvents` says, one place later for `LE` low. -/
theorem wordTransferEvents : Obligations.WordTransferEvents := by
  refine fun w => ⟨length_wordEvents w, rfl, getElem?_wordEvents_last w, fun k hk => ?_⟩
  rw [Nat.add_comm 1, Nat.add_comm 2, Nat.add_comm 3, getElem?_wordEvents w (by omega),
    getElem?_wordEvents w (by omega), getElem?_wordEvents w (by omega)]
  exact getElem?_bitEvents w hk

/-! ### The serializer, one pin event at a time -/

theorem serTicks_add (m n : Nat) (s : State) : serTicks (m + n) s = serTicks n (serTicks m s) := by
  induction m generalizing s with
  | zero => rw [Nat.zero_add, serTicks]
  | succ m ih => rw [Nat.succ_add, serTicks, serTicks, ih]

/-- Three ticks send a bit that is not the last, and the next one stands ready (R80). -/
theorem serTicks_bit (w : Word) {n : Nat} (h : n + 1 < 32) (s : State) :
    serTicks 3 { s with ser := .shifting w ⟨n + 1, h⟩ .setData }
      = { emitAll [⟨.data, w.getLsbD (n + 1)⟩, ⟨.clk, true⟩, ⟨.clk, false⟩] s with
          ser := .shifting w ⟨n, by omega⟩ .setData } := by
  simp [serTicks, serTick, emit, emitAll]

/-- The bits from `n` down to 0, three ticks each, are the events `WriteWord` has for them (R80). -/
theorem serTicks_bits (w : Word) {n : Nat} (h : n < 32) (s : State) :
    serTicks (3 * (n + 1)) { s with ser := .shifting w ⟨n, h⟩ .setData }
      = { emitAll (bitEvents w (n + 1)) s with ser := .shifting w 0 .latch } := by
  induction n generalizing s with
  | zero => simp [serTicks, serTick, emit, emitAll, bitEvents]
  | succ n ih =>
    rw [show 3 * (n + 1 + 1) = 3 + 3 * (n + 1) by omega, serTicks_add, serTicks_bit, ih, emitAll_emitAll]
    rfl

/-- Settles O39: 96 ticks send the 32 bits, one more latches the word. -/
theorem serializerRefinesWriteWord : Obligations.SerializerRefinesWriteWord := by
  intro w s
  have hbits : serTicks 96 (serBegin w s)
      = { emitAll (bitEvents w 32) (emit .le false s) with ser := .shifting w 0 .latch } :=
    serTicks_bits w (n := 31) _ _
  rw [serTicks_add 96 1, hbits]
  simp [serTicks, serTick, emit, emitAll_emitAll, writeWord, wordEvents, Bus.driveAll_append]

/-! ### Register words on their own -/

/-- Settles O41: a transfer from a low clock leaves the word in the latch of its address. -/
theorem registerWordReachesItsLatch : Obligations.RegisterWordReachesItsLatch := by
  intro i w r s henc haddr hser hf hclk
  rw [exec_busWord_of_ready henc hser hf, writeWord, emitAll, driveAll_wordEvents_of_addr hclk haddr]

/-- Settles O43: the levels a transfer leaves do not depend on those before it, but for `CE`. -/
theorem registerWordFrame : Obligations.RegisterWordFrame :=
  fun _ w s henc hser hf => ⟨_, exec_busWord_of_ready henc hser hf, driveAll_wordEvents_pins w s.bus⟩

end Sys2Proof.Machine
end

section
/-! PROOFS. What every instruction and every pin-level step does to the observation of a run and to chip-enable (spec
44_serializer.md R79, R88; 20_memory.md R33; 00_scope.md R11). -/

namespace Sys2Proof.Machine

/-! ### Emitting -/

/-- From `s` to `t` exactly `evs` is emitted: recorded, and driven on the bus (R79). -/
structure Emits (evs : List PinEvent) (s t : State) : Prop where
  events : t.events = s.events ++ evs
  bus : t.bus = s.bus.driveAll evs

theorem Emits.of_same {s t : State} (hev : t.events = s.events) (hbus : t.bus = s.bus) : Emits [] s t :=
  ⟨by simpa using hev, hbus⟩

theorem Emits.of_word {s t : State} {w : Word} (h : Emits (wordEvents w) s t) : Emits (sentWords [w]) s t := by
  rwa [sentWords, List.flatMap_cons, List.flatMap_nil, List.append_nil]

theorem Pins.drive_ce_of_ne {p : Pins} {e : PinEvent} (h : e.line ≠ .ce) : (p.drive e).ce = p.ce := by
  obtain ⟨line, level⟩ := e
  cases line with
  | ce => exact absurd rfl h
  | le | clk | data => rfl

/-- Events on the other lines leave `CE` (R88). -/
theorem Bus.driveAll_ce_of_ne {evs : List PinEvent} (b : Bus) (h : ∀ e ∈ evs, e.line ≠ .ce) :
    (b.driveAll evs).pins.ce = b.pins.ce := by
  induction evs generalizing b with
  | nil => rfl
  | cons e evs ih =>
    obtain ⟨he, hevs⟩ := List.forall_mem_cons.1 h
    rw [Bus.driveAll_cons, ih _ hevs]
    exact Pins.drive_ce_of_ne he

theorem Emits.ce_eq {evs : List PinEvent} {s t : State} (h : Emits evs s t) (hce : ∀ e ∈ evs, e.line ≠ .ce) :
    t.bus.pins.ce = s.bus.pins.ce := by
  rw [h.bus, Bus.driveAll_ce_of_ne _ hce]

/-- `INIT` has one `CE` event, that of `PinsIdle` (R59, R88). -/
theorem filter_ce_initEvents (r : RegFile) :
    (initEvents hw r).filter (fun e => e.line == .ce) = [{ line := .ce, level := true }] := by
  have hsent : ∀ ws, (sentWords ws).filter (fun e => e.line == .ce) = [] := fun ws =>
    List.filter_eq_nil_iff.2 fun e he => by simpa using sentWords_line_ne_ce he
  rw [initEvents, List.filter_append, List.filter_append, hsent, hsent]
  rfl

/-! ### What a step emits and answers -/

/-- A pin-level step emits at most one event, on `LE`, `CLK` or `DATA` (R80, R88). -/
theorem serTick_emits (s : State) : ∃ evs, Emits evs s (serTick s) ∧ ∀ e ∈ evs, e.line ≠ .ce := by
  unfold serTick
  split
  case h_1 => exact ⟨[], .of_same rfl rfl, by simp⟩
  case h_2 | h_3 | h_4 | h_5 => exact ⟨[_], ⟨rfl, rfl⟩, by simp⟩

@[simp] theorem serTick_responses (s : State) : (serTick s).responses = s.responses := by
  unfold serTick; split <;> rfl

/-- `INIT` emits the idle levels, the baseline and the registers it leaves (R58, R59). -/
theorem initDone_emits (ref : Int) (c : Calc) (s : State) :
    Emits (initEvents hw (composeAll hw (initSettings ref) c)) s (initDone hw ref c s) :=
  ⟨rfl, by simp only [initDone]⟩

/-- An instruction sends whole words and is no `INIT` that succeeds, or it is an `INIT` and emits what R58 and R59
say. -/
theorem ExecEffect.emits {i : Instr} {s t : State} (h : ExecEffect i s t) :
    (∃ ws, Emits (sentWords ws) s t ∧ ∀ arg, i = .init arg → t.fault ≠ .none)
      ∨ ∃ arg r, i = .init arg ∧ Emits (initEvents hw r) s t := by
  cases h with
  | refused hf => exact .inl ⟨[], .of_same rfl rfl, fun _ _ => hf⟩
  | faulted code hf hc hcmd => exact .inl ⟨[], .of_same rfl rfl, fun _ _ => hc⟩
  | initialised hf hi h1 h2 =>
    rw [initBody_hw h1 h2]
    exact .inr ⟨_, _, rfl, initDone_emits ..⟩
  | rejected _ _ | readback _ => exact .inl ⟨[], .of_same rfl rfl, nofun⟩
  | sampled ha => exact .inl ⟨[], .of_same (sampleLd_events s) (sampleLd_bus s), nofun⟩
  | programmed ha hr hc => exact .inl ⟨_, ⟨rfl, by simp only [respond_bus, emitAll_bus]⟩, nofun⟩
  | power _ _ | phase _ _ => exact .inl ⟨[_], .of_word ⟨rfl, rfl⟩, nofun⟩
  | output _ _ hset _ | noise _ _ hset _ =>
    refine .inl ⟨[_], .of_word ⟨rfl, rfl⟩, ?_⟩
    rintro arg rfl
    simp at hset
  | word _ henc =>
    refine .inl ⟨[_], .of_word ⟨rfl, rfl⟩, ?_⟩
    rintro arg rfl
    cases henc

/-- An instruction answers at most once (R11, R33). -/
theorem ExecEffect.responds {i : Instr} {s t : State} (h : ExecEffect i s t) :
    t.responses = s.responses ∨ ∃ r, t.responses = s.responses ++ [r] := by
  cases h with
  | refused _ | faulted _ _ _ _ | word _ _ => exact .inl rfl
  | initialised hf hi h1 h2 =>
    rw [initBody_hw h1 h2]
    exact .inr ⟨_, rfl⟩
  | sampled ha =>
    rw [respond_responses, sampleLd_responses]
    exact .inr ⟨_, rfl⟩
  | rejected _ _ | programmed _ _ _ | power _ _ | output _ _ _ _ | phase _ _ | noise _ _ _ _ | readback _ =>
    exact .inr ⟨_, rfl⟩

/-! ### The obligations -/

/-- Settles O44: a step is a pin event, or nothing, or one instruction. -/
theorem observationsOnlyGrow : Obligations.ObservationsOnlyGrow := by
  intro s t h
  obtain ⟨-, rfl⟩ | ⟨-, -, rfl⟩ | ⟨item, rest, -, -, he⟩ := step_cases h
  · obtain ⟨evs, hemit, -⟩ := serTick_emits s
    exact ⟨evs, [], hemit.events, by simp, by simp⟩
  · exact ⟨[], [], by simp, by simp, by simp⟩
  · obtain ⟨evs, hev⟩ : ∃ evs, t.events = s.events ++ evs := by
      obtain ⟨ws, hemit, -⟩ | ⟨_, r, -, hemit⟩ := he.emits
      · exact ⟨_, hemit.events⟩
      · exact ⟨_, hemit.events⟩
    obtain hresp | ⟨r, hresp⟩ := he.responds
    · exact ⟨evs, [], hev, by simpa using hresp, by simp⟩
    · exact ⟨evs, [r], hev, hresp, by simp⟩

/-- Settles O45: whole words have no `CE` event, and what is not whole words is an `INIT`. -/
theorem onlyInitDrivesChipEnable : Obligations.OnlyInitDrivesChipEnable := by
  refine ⟨fun s => ?_, fun i s t h => ?_⟩
  · obtain ⟨evs, hemit, hce⟩ := serTick_emits s
    exact ⟨hemit.ce_eq hce, evs, hemit.events, hce⟩
  · obtain ⟨ws, hemit, hinit⟩ | ⟨arg, r, rfl, hemit⟩ := (exec_effect h).2.emits
    · have hce : ∀ e ∈ sentWords ws, e.line ≠ .ce := fun _ => sentWords_line_ne_ce
      exact ⟨_, hemit.events, fun _ => ⟨hce, hemit.ce_eq hce⟩, fun arg harg hf => absurd hf (hinit arg harg)⟩
    · exact ⟨_, hemit.events, fun hno => absurd rfl (hno arg), fun _ _ _ => filter_ce_initEvents r⟩

end Sys2Proof.Machine
end

section
/-! PROOFS. The block's faults: a faulted block refuses, a fault is precise, and its code follows the order of the
checks (spec 60_exceptions.md R90 to R93). -/

namespace Sys2Proof.Machine

/-! ### A faulted block -/

/-- Whatever the instruction, `FAULT` is its first check (R92, R93; assumption log 7 for register words). -/
theorem exec_eq_whenReady (i : Instr) (s : State) : ∃ body, exec i s = whenReady s body := by
  cases i with
  | init arg => exact ⟨_, exec_init arg s⟩
  | setFreq arg => exact ⟨_, exec_setFreq arg s⟩
  | setPower arg => exact ⟨_, exec_setPower arg s⟩
  | enableOutput arg => exact ⟨_, exec_enableOutput arg s⟩
  | setPhase arg => exact ⟨_, exec_setPhase arg s⟩
  | setLowNoise arg => exact ⟨_, exec_setLowNoise arg s⟩
  | getFreq arg => exact ⟨_, exec_getFreq arg s⟩
  | isLocked arg => exact ⟨_, exec_isLocked arg s⟩
  | reserved code arg => exact ⟨_, exec_reserved arg s code⟩
  | disableOutput => exact ⟨_, exec_disableOutput s⟩
  | setLowSpur => exact ⟨_, exec_setLowSpur s⟩
  | reg0IntFrac _ | reg1PhaseModPrescaler _ | reg2NoiseRefMux _ | reg3PowerCp _ | reg4RfdivBscOuten _ | reg5LdPin _
  | regAddr67 _ => exact ⟨_, exec_busWord rfl s⟩

theorem exec_of_fault {s : State} (hser : s.ser = .idle) (hf : s.fault ≠ .none) (i : Instr) :
    exec i s = .next s := by
  obtain ⟨body, hexec⟩ := exec_eq_whenReady i s
  rw [hexec, whenReady_of_fault hser hf]

/-- Settles O14: a faulted block fails the first check of every instruction. -/
theorem faultedBlockRefusesEveryCommand : Obligations.FaultedBlockRefusesEveryCommand :=
  fun _ i _ hser hf => exec_of_fault hser hf i

/-! ### Precision (R91) -/

/-- An instruction keeps `FAULT`, or `FAULT` is all it changes: at the parameters of this hardware `INIT` raises
nothing once its checks have passed. -/
theorem ExecEffect.fault_kept_or_precise {i : Instr} {s t : State} (h : ExecEffect i s t) :
    t.fault = s.fault ∨ t = { s with fault := t.fault } := by
  cases h with
  | faulted _ _ _ _ => exact .inr rfl
  | initialised _ _ h1 h2 =>
    rw [initBody_hw h1 h2]
    exact .inl rfl
  | sampled _ => exact .inl (sampleLd_fault s)
  | refused _ | rejected _ _ | programmed _ _ _ | power _ _ | output _ _ _ _ | phase _ _ | noise _ _ _ _
  | readback _ | word _ _ => exact .inl rfl

/-- Settles O17: a command that ends with a fault it raised has not kept `FAULT`. -/
theorem faultsArePrecise : Obligations.FaultsArePrecise :=
  fun _ _ _ _ hf h ht => (exec_effect h).2.fault_kept_or_precise.resolve_left fun hkept => ht (hkept.trans hf)

/-- `INIT` whose calculation faults stops after the baseline transfer, at any parameters (R58, R91). -/
theorem initBody_of_error {P : Params} {ref : Int} {code : FaultCode} (hc : freqCalc P initFreq ref = .error code)
    (s : State) : initBody P ref s = raise code (initPrepare P ref s) := by
  have href : (initPrepare P ref s).S.ref = ref := by rw [initPrepare_eq]
  rw [initBody, setFreqBody_of_error initFreq_inRange (href.symm ▸ hc)]

section
variable (P : Params) (ref : Int) (s : State)
@[simp] theorem initPrepare_fault : (initPrepare P ref s).fault = s.fault := by
  simp [initPrepare, transmit_fullUpdate, pinsIdle]
@[simp] theorem initPrepare_inited : (initPrepare P ref s).inited = s.inited := by
  simp [initPrepare, transmit_fullUpdate, pinsIdle]
@[simp] theorem initPrepare_reg : (initPrepare P ref s).reg = P.baseline := by
  simp [initPrepare, transmit_fullUpdate, pinsIdle]
@[simp] theorem initPrepare_events : (initPrepare P ref s).events
    = s.events ++ pinsIdleEvents P ++ sentWords (fullUpdateWords P.baseline) := by
  simp [initPrepare, transmit_fullUpdate, pinsIdle]
@[simp] theorem initPrepare_responses : (initPrepare P ref s).responses = s.responses := by
  simp [initPrepare, transmit_fullUpdate, pinsIdle]
end

/-- Settles O18: a calculation faults with `INT_RANGE` only, and before it `INIT` has done what `initPrepare` says. -/
theorem intRangeInsideInitKeepsTheBaseline : Obligations.IntRangeInsideInitKeepsTheBaseline := by
  intro P ref s code hf hi hc
  obtain rfl : code = .intRange := ((freqCalc_error_iff _ _ _ _).1 hc).1
  rw [initBody_of_error hc, raise_of_noFault ((initPrepare_fault P ref s).trans hf)]
  exact ⟨rfl, (initPrepare_inited P ref s).trans hi, initPrepare_reg P ref s, initPrepare_events P ref s,
    initPrepare_responses P ref s⟩

/-! ### The order of the checks (R93) -/

/-- The command completes, with this code in `FAULT` (R109). -/
def CompletesWith (code : FaultCode) (r : Result) : Prop := ∃ t, r = .next t ∧ t.fault = code

/-- A setting operation whose insert is defined raises nothing (R73 to R76). -/
theorem insertAndSend_completesWith {i : RegIx} {hi lo v : Nat} {s : State}
    (h : ∃ w, insertField (s.reg.get i) hi lo v = some w) : CompletesWith s.fault (insertAndSend i hi lo v s) := by
  obtain ⟨w, hins⟩ := h
  exact ⟨_, insertAndSend_eq hins, rfl⟩

/-- A command whose body raises nothing makes two checks: `FAULT`, then `NOT_INIT`. -/
theorem whenInited_completesWith {s : State} {body : State → Result} (hser : s.ser = .idle)
    (hbody : CompletesWith s.fault (body s)) :
    CompletesWith (if s.fault ≠ .none then s.fault else if s.inited then .none else .notInit)
      (whenInited s body) := by
  by_cases hf : s.fault = .none
  · rw [if_neg (not_not_intro hf)]
    cases hi : s.inited with
    | true =>
      rw [whenInited_of_accepts ⟨hser, hf, hi⟩]
      exact hf ▸ hbody
    | false => exact ⟨_, whenInited_of_notInited hser hf hi, rfl⟩
  · exact ⟨s, whenInited_of_fault hser hf, (if_pos hf).symm⟩

section
variable {s : State} (hser : s.ser = .idle) (hf : s.fault = .none)
include hser hf

/-- `REINIT`, then `REF_RANGE`; what comes after them raises nothing (R58). -/
theorem exec_init_completesWith (arg : Arg) :
    CompletesWith (faultByCheckOrder (.init arg) s) (exec (.init arg) s) := by
  obtain ⟨hreinit, hout, hin⟩ := initProgramsOneHundredMegahertz s arg hser hf
  rw [faultByCheckOrder, if_neg (not_not_intro hf)]
  split
  next hi => exact ⟨_, hreinit hi, rfl⟩
  next hi =>
    have hi := Bool.eq_false_iff.2 hi
    split
    next href => exact ⟨_, hout hi href, rfl⟩
    next href =>
      obtain ⟨_, t, -, he, -, -, -, ht, -⟩ := hin hi (by omega) (by omega)
      exact ⟨t, he, ht⟩

/-- `NOT_INIT`, then the three outcomes of `SET_FREQ` (R71). -/
theorem exec_setFreq_completesWith (arg : Arg) :
    CompletesWith (faultByCheckOrder (.setFreq arg) s) (exec (.setFreq arg) s) := by
  rw [faultByCheckOrder, if_neg (not_not_intro hf)]
  split
  next hi => exact ⟨_, (exec_setFreq arg s).trans (whenInited_of_notInited hser hf hi), rfl⟩
  next hi =>
    have ha : s.Accepts := ⟨hser, hf, Bool.of_not_eq_false hi⟩
    split
    next hr => exact ⟨_, exec_setFreq_of_not_inRange ha hr, hf⟩
    next hr =>
      have hr := not_not.1 hr
      split
      next code hc => exact ⟨_, exec_setFreq_of_error ha hr hc, rfl⟩
      next c hc => exact ⟨_, exec_setFreq_of_ok ha hr hc, hf⟩

end

/-- Settles O16: a faulted block refuses; otherwise each command makes its checks in the order of R93. -/
theorem faultFollowsTheCheckOrder : Obligations.FaultFollowsTheCheckOrder := by
  intro i s hcmd hser
  by_cases hf : s.fault = .none
  · cases i with
    | init arg => exact exec_init_completesWith hser hf arg
    | setFreq arg => exact exec_setFreq_completesWith hser hf arg
    | reserved code arg =>
      exact ⟨_, reservedCodeRaisesBadOp s code arg hser hf, (if_neg (not_not_intro hf)).symm⟩
    | setPower _ =>
      exact whenInited_completesWith hser (insertAndSend_completesWith (insertField_power_defined _ _))
    | enableOutput _ | disableOutput =>
      exact whenInited_completesWith hser (insertAndSend_completesWith (insertField_outen_defined _ _))
    | setPhase _ =>
      exact whenInited_completesWith hser (insertAndSend_completesWith (insertField_phase_defined _ _))
    | setLowNoise _ | setLowSpur =>
      exact whenInited_completesWith hser (insertAndSend_completesWith (insertField_noise_defined _ _))
    | getFreq _ =>
      rw [exec_getFreq]
      exact whenInited_completesWith hser ⟨_, rfl, rfl⟩
    | isLocked _ =>
      rw [exec_isLocked]
      exact whenInited_completesWith hser ⟨_, rfl, sampleLd_fault s⟩
    | reg0IntFrac _ | reg1PhaseModPrescaler _ | reg2NoiseRefMux _ | reg3PowerCp _ | reg4RfdivBscOuten _ | reg5LdPin _
    | regAddr67 _ => cases hcmd
  · exact ⟨s, exec_of_fault hser hf i, (if_pos hf).symm⟩

end Sys2Proof.Machine
end

section
/-! PROOFS. Reset, and the steps and runs of commands: every step answers, every run completes, `INIT` comes first and
once, and a transfer in progress holds the issue stream (spec 70_reset_and_hazards.md R102, R104, R105, R109;
10_state.md R21). -/

namespace Sys2Proof.Machine

/-! ### Reset and the order of `INIT` -/

/-- Settles O1, field by field of the power-on state. -/
theorem resetIsPowerOnState : Obligations.ResetIsPowerOnState := ⟨rfl, rfl, rfl, rfl, rfl, rfl, rfl⟩

/-- Every command but `INIT` and the reserved codes has `INITED` as its second check (R93). -/
theorem exec_eq_whenInited {i : Instr} (hcmd : i.IsCommand = true) (hinit : ∀ arg, i ≠ .init arg)
    (hres : ∀ code arg, i ≠ .reserved code arg) (s : State) : ∃ body, exec i s = whenInited s body := by
  cases i with
  | init arg => exact absurd rfl (hinit arg)
  | reserved code arg => exact absurd rfl (hres code arg)
  | setFreq arg => exact ⟨_, exec_setFreq arg s⟩
  | setPower arg => exact ⟨_, exec_setPower arg s⟩
  | enableOutput arg => exact ⟨_, exec_enableOutput arg s⟩
  | setPhase arg => exact ⟨_, exec_setPhase arg s⟩
  | setLowNoise arg => exact ⟨_, exec_setLowNoise arg s⟩
  | getFreq arg => exact ⟨_, exec_getFreq arg s⟩
  | isLocked arg => exact ⟨_, exec_isLocked arg s⟩
  | disableOutput => exact ⟨_, exec_disableOutput s⟩
  | setLowSpur => exact ⟨_, exec_setLowSpur s⟩
  | reg0IntFrac _ | reg1PhaseModPrescaler _ | reg2NoiseRefMux _ | reg3PowerCp _ | reg4RfdivBscOuten _ | reg5LdPin _
  | regAddr67 _ => cases hcmd

/-- Settles O15: before `INIT` the check of `INITED` fails; a second `INIT` is the first clause of O20. -/
theorem initMustComeFirstAndOnce : Obligations.InitMustComeFirstAndOnce := by
  refine fun s hser hf => ⟨fun hi i hcmd hinit hres => ?_,
    fun hi arg => (initProgramsOneHundredMegahertz s arg hser hf).1 hi⟩
  obtain ⟨body, hexec⟩ := exec_eq_whenInited hcmd hinit hres s
  rw [hexec, whenInited_of_notInited hser hf hi]

/-! ### Every step answers a next state (R109) -/

/-- What is no command is a register word (R39, R57). -/
theorem exists_encode_busWord {i : Instr} (h : i.IsCommand = false) : ∃ w, encode i = .busWord w := by
  cases i <;> cases h <;> exact ⟨_, rfl⟩

/-- With the serializer `Idle` every instruction answers a next state: a command by O16, a register word by its
transfer. -/
theorem exec_answers_next {s : State} (hser : s.ser = .idle) (i : Instr) : ∃ t, exec i s = .next t := by
  by_cases hf : s.fault = .none
  · cases hcmd : i.IsCommand with
    | true => exact (faultFollowsTheCheckOrder i s hcmd hser).imp fun _ => And.left
    | false =>
      obtain ⟨w, henc⟩ := exists_encode_busWord hcmd
      exact ⟨_, exec_busWord_of_ready henc hser hf⟩
  · exact ⟨s, exec_of_fault hser hf i⟩

/-- Settles O3, clause by clause of `step`. -/
theorem everyStepAnswersNext : Obligations.EveryStepAnswersNext := by
  intro s
  cases hser : s.ser with
  | shifting w k b => exact ⟨_, step_of_shifting hser⟩
  | idle =>
    cases hq : s.issue with
    | nil => exact ⟨_, step_of_nothing_issued hser hq⟩
    | cons item rest =>
      rw [step_of_issued hser hq]
      exact exec_answers_next (s := { s with issue := rest }) hser (decode item)

/-! ### Runs of commands (R109) -/

/-- Only a step takes from the issue stream, never the instruction it runs (R20, R33). -/
theorem ExecEffect.issue {i : Instr} {s t : State} (h : ExecEffect i s t) : t.issue = s.issue := by
  cases h with
  | initialised _ _ h1 h2 => rw [initBody_hw h1 h2]; rfl
  | sampled _ => exact sampleLd_issue s
  | refused _ | faulted _ _ _ _ | rejected _ _ | programmed _ _ _ | power _ _ | output _ _ _ _ | phase _ _
  | noise _ _ _ _ | readback _ | word _ _ => rfl

/-- A step from a command boundary takes the next item off the stream. -/
theorem step_takes_next_item {s t : State} {item : Issue} {rest : List Issue} (hser : s.ser = .idle)
    (hq : s.issue = item :: rest) (h : step s = .next t) : t.issue = rest :=
  (exec_effect ((step_of_issued hser hq).symm.trans h)).2.issue

/-- From any command boundary, as many steps as commands are issued complete them and end in a command boundary. -/
theorem run_commands_completes {cs : List (BitVec 68)} {s : State} (hs : Inv s)
    (hq : s.issue = cs.map Issue.command) :
    ∃ t, Host.Core.run Sys2Proof.core cs.length s = .next t ∧ t.issue = [] ∧ Inv t := by
  induction cs generalizing s with
  | nil => exact ⟨s, rfl, hq, hs⟩
  | cons c cs ih =>
    obtain ⟨t, hstep⟩ := everyStepAnswersNext s
    have hcmd : s.NextIsCommand := by simp [State.NextIsCommand, hq]
    obtain ⟨u, hrun, hu⟩ :=
      ih (everyCommandStepKeepsInvariant s t hs hcmd hstep) (step_takes_next_item hs.serIdle hq hstep)
    exact ⟨u, (run_core_succ hstep).trans hrun, hu⟩

/-- Settles O4: the power-on state is a command boundary, whatever is issued. -/
theorem everyRunOfCommandsCompletes : Obligations.EveryRunOfCommandsCompletes := fun _ =>
  run_commands_completes (resetSatisfiesInvariant.of_same rfl rfl rfl rfl rfl rfl) rfl

/-! ### A transfer in progress (R21, R105) -/

/-- A pin-level step writes the bus, the event list and the serializer alone. -/
theorem serTick_frame (s : State) :
    ∃ bus events ser, serTick s = { s with bus := bus, events := events, ser := ser } := by
  unfold serTick
  split
  case h_1 => exact ⟨s.bus, s.events, s.ser, rfl⟩
  case h_2 | h_3 | h_4 | h_5 => exact ⟨_, _, _, rfl⟩

/-- How many pin events a transfer still has (R80). -/
def Serializer.eventsLeft : Serializer → Nat
  | .idle => 0
  | .shifting _ k .setData => 3 * k.val + 4
  | .shifting _ k .clkRise => 3 * k.val + 3
  | .shifting _ k .clkFall => 3 * k.val + 2
  | .shifting _ _ .latch => 1

theorem Serializer.eventsLeft_le (ser : Serializer) : ser.eventsLeft ≤ 97 := by
  unfold eventsLeft
  split <;> omega

/-- A pin-level step of a transfer in progress is one event nearer its end. -/
theorem eventsLeft_serTick {s : State} {w : Word} {k : Fin 32} {b : BitStep} (h : s.ser = .shifting w k b) :
    s.ser.eventsLeft = (serTick s).ser.eventsLeft + 1 := by
  cases b with
  | setData | clkRise | latch => simp only [serTick, h, Serializer.eventsLeft]
  | clkFall =>
    simp only [serTick, h]
    split
    next hk => simp only [Serializer.eventsLeft, hk]
    next hk => simp only [Serializer.eventsLeft]; omega

/-- As many steps as a transfer has events left complete it, with the issue stream held. -/
theorem run_transfer_completes {n : Nat} {s : State} (h : s.ser.eventsLeft = n) :
    ∃ t, Host.Core.run Sys2Proof.core n s = .next t ∧ t.ser = .idle ∧ t.issue = s.issue := by
  induction n generalizing s with
  | zero =>
    refine ⟨s, rfl, ?_, rfl⟩
    cases hser : s.ser with
    | idle => rfl
    | shifting w k b => rw [eventsLeft_serTick hser] at h; omega
  | succ n ih =>
    cases hser : s.ser with
    | idle => simp [hser, Serializer.eventsLeft] at h
    | shifting w k b =>
      obtain ⟨t, hrun, hidle, hissue⟩ := ih (s := serTick s) (by rw [eventsLeft_serTick hser] at h; omega)
      obtain ⟨_, _, _, htick⟩ := serTick_frame s
      exact ⟨t, (run_core_succ (step_of_shifting hser)).trans hrun, hidle, hissue.trans (by rw [htick])⟩

/-- Settles O40: `exec` has no step, a step is one pin event, and the pin events left are at most 97. -/
theorem shiftingHoldsNewCommands : Obligations.ShiftingHoldsNewCommands := by
  refine fun s w k b hser => ⟨fun i => ?_, ⟨_, step_of_shifting hser, ?_⟩,
    _, (run_transfer_completes rfl).imp fun t ht => ⟨s.ser.eventsLeft_le, ht⟩⟩
  · obtain ⟨body, hexec⟩ := exec_eq_whenReady i s
    rw [hexec, whenReady_of_shifting hser]
  · obtain ⟨_, _, _, htick⟩ := serTick_frame s
    rw [htick]
    exact ⟨rfl, rfl, rfl, rfl, rfl, rfl, rfl, rfl, rfl, rfl⟩

end Sys2Proof.Machine
end

section
/-! PROOFS. The cost of a command in pin events, and the clock times of a word (spec 70_reset_and_hazards.md R111;
44_serializer.md R80, R85). -/

namespace Sys2Proof.Machine

/-! ### Event counts -/

/-- The pin events of an instruction that ends without a fault: the table of R111, and one word for a register word. -/
def eventCount : Instr → Nat
  | .init _ => 1180
  | .setFreq arg => if InRange arg.toInt then 588 else 0
  | .setPower _ | .enableOutput _ | .setPhase _ | .setLowNoise _ | .disableOutput | .setLowSpur => 98
  | .getFreq _ | .isLocked _ | .reserved _ _ => 0
  | .reg0IntFrac _ | .reg1PhaseModPrescaler _ | .reg2NoiseRefMux _ | .reg3PowerCp _ | .reg4RfdivBscOuten _
  | .reg5LdPin _ | .regAddr67 _ => 98

theorem eventCount_of_encode_busWord {i : Instr} {w : Word} (h : encode i = .busWord w) : eventCount i = 98 := by
  cases i <;> cases h <;> rfl

/-- `INIT` drives the four idle levels and two full updates of six words (R58, R59). -/
theorem length_initEvents (P : Params) (r : RegFile) : (initEvents P r).length = 1180 := by
  simp [initEvents, pinsIdleEvents, fullUpdateWords]

/-- From `s` to `t` exactly `n` events are emitted and `FAULT` stays 0. -/
structure EmitsCount (n : Nat) (s t : State) : Prop where
  before : s.fault = .none
  after : t.fault = .none
  events : t.events.length = s.events.length + n

/-- An instruction ends with a fault and has emitted nothing, or without one and has emitted what R111 says. -/
theorem ExecEffect.faults_or_counts {i : Instr} {s t : State} (h : ExecEffect i s t) :
    (t.fault ≠ .none ∧ t.events = s.events) ∨ EmitsCount (eventCount i) s t := by
  cases h with
  | refused hf => exact .inl ⟨hf, rfl⟩
  | faulted _ _ hc _ => exact .inl ⟨hc, rfl⟩
  | initialised hf _ h1 h2 =>
    rw [initBody_hw h1 h2]
    exact .inr ⟨hf, hf, by rw [(initDone_emits ..).events, List.length_append, length_initEvents, eventCount]⟩
  | rejected ha hr => exact .inr ⟨ha.noFault, ha.noFault, by simp [eventCount, hr]⟩
  | programmed ha hr _ => exact .inr ⟨ha.noFault, ha.noFault, by simp [eventCount, hr, fullUpdateWords]⟩
  | power ha _ | phase ha _ => exact .inr ⟨ha.noFault, ha.noFault, by simp [eventCount]⟩
  | output _ ha hset _ | noise _ ha hset _ =>
    obtain ⟨arg, rfl, -⟩ | ⟨rfl, -⟩ := hset <;> exact .inr ⟨ha.noFault, ha.noFault, by simp [eventCount]⟩
  | readback ha => exact .inr ⟨ha.noFault, ha.noFault, rfl⟩
  | sampled ha => exact .inr ⟨ha.noFault, (sampleLd_fault s).trans ha.noFault, by simp [eventCount]⟩
  | word hf henc => exact .inr ⟨hf, hf, by simp [writeWord, eventCount_of_encode_busWord henc]⟩

/-- Settles O46: the table is `eventCount`. -/
theorem eventCountsPerCommand : Obligations.EventCountsPerCommand := by
  intro s t i _ h
  obtain ⟨hf, hev⟩ | hcount := (exec_effect h).2.faults_or_counts
  · exact ⟨fun _ => congrArg List.length hev, fun ht => absurd ht hf⟩
  · refine ⟨fun hf => ?_, fun _ => ⟨?_, ?_, ?_, ?_⟩⟩
    · exact (hf.elim (· hcount.before) (· hcount.after)).elim
    · rintro arg rfl
      exact hcount.events
    · rintro arg rfl
      exact hcount.events
    · rintro (⟨arg, rfl | rfl | rfl | rfl⟩ | rfl | rfl) <;> exact hcount.events
    · rintro arg (rfl | rfl) <;> exact hcount.events

/-! ### Clock times (R85) -/

/-- The events that end a low time of the clock: `CLK` or `LE` goes high (R85). -/
def endsClkLow (e : PinEvent) : Bool := (e.line == .clk || e.line == .le) && e.level

theorem DelayedUntil.le_of_find? {bound : Nat} {p : PinEvent → Bool} {e g : TimedEvent} {rest : List TimedEvent}
    (h : DelayedUntil bound p e rest) (hg : (rest.find? fun f => p f.event) = some g) : e.time + bound ≤ g.time := by
  rwa [DelayedUntil, hg] at h

section
variable {e g : TimedEvent} {rest : List TimedEvent}

/-- The clock stays high for `T_CLK_HIGH`. -/
theorem MeetsBound.clk_high (h : MeetsBound e (g :: rest)) (he : e.event = ⟨.clk, true⟩)
    (hg : g.event = ⟨.clk, false⟩) : e.time + Config.tClkHigh ≤ g.time := by
  simp only [MeetsBound, he] at h
  exact h.le_of_find? (by simp [hg])

/-- The clock stays low for `T_CLK_LOW`. -/
theorem MeetsBound.clk_low (h : MeetsBound e rest) (he : e.event = ⟨.clk, false⟩)
    (hg : (rest.find? fun f => endsClkLow f.event) = some g) : e.time + Config.tClkLow ≤ g.time := by
  simp only [MeetsBound, he] at h
  exact h.le_of_find? hg

end

/-- The last `n` bits of a word, then `LE` high: from the first rise on there are `n` high and `n` low times. -/
theorem clock_times_of_bits {w : Word} {n : Nat} {bits : List TimedEvent} {last : TimedEvent}
    (hbits : bits.map TimedEvent.event = bitEvents w n) (hlast : last.event = ⟨.le, true⟩)
    (h : RespectsTiming (bits ++ [last])) :
    ∃ g, ((bits ++ [last]).find? fun f => endsClkLow f.event) = some g
      ∧ g.time + n * (Config.tClkHigh + Config.tClkLow) ≤ last.time := by
  induction n generalizing bits with
  | zero =>
    obtain rfl := List.map_eq_nil_iff.1 hbits
    exact ⟨last, by simp [endsClkLow, hlast], by simp⟩
  | succ n ih =>
    obtain ⟨d, _, rfl, hd, hbits⟩ := List.map_eq_cons_iff.1 hbits
    obtain ⟨r, _, rfl, hr, hbits⟩ := List.map_eq_cons_iff.1 hbits
    obtain ⟨f, bits, rfl, hf, hbits⟩ := List.map_eq_cons_iff.1 hbits
    obtain ⟨-, -, -, hhigh, -, hlow, hrest⟩ := h
    obtain ⟨g, hg, hgtime⟩ := ih hbits hrest
    have hrf := hhigh.clk_high hr hf
    have hfg := hlow.clk_low hf hg
    exact ⟨r, by simp [endsClkLow, hd, hr], by rw [Nat.succ_mul]; omega⟩

/-- Settles O47: the first rise of the clock is not before the first event. -/
theorem wordTakesItsClockTimes : Obligations.WordTakesItsClockTimes := by
  intro w first last mid hev h
  obtain ⟨-, hev⟩ := List.cons.inj hev
  rw [List.map_append] at hev
  obtain ⟨hbits, hlast⟩ := List.append_inj' hev rfl
  obtain ⟨hfirst, -, hrest⟩ := h
  obtain ⟨g, hg, htime⟩ := clock_times_of_bits hbits (List.cons.inj hlast).1 hrest
  have hstart := hfirst g (List.mem_of_find?_eq_some hg)
  omega

end Sys2Proof.Machine
end
